-- ==== Sys2Proof/Word.lean ====
section
/-! DEFINITION. The word types of the block (spec 00_scope.md R9, 30_encoding.md R55). -/

namespace Sys2Proof

/-- A byte, the `u8` of R9. -/
abbrev Byte := BitVec 8

/-- A 16-bit value, the `u16` of R9: the CRC register, `data_length` and `sequence`. -/
abbrev Half := BitVec 16

/-- The 11-bit command word of R55: `op = w[10:8]`, `d = w[7:0]`. -/
abbrev CommandWord := BitVec 11

end Sys2Proof
end

