-- ==== Sys2Proof/Syntax.lean ====
section
/-! DEFINITION. The instructions: one constructor per row of spec/opcode_table.json, and the fields of a frame header. -/

namespace Sys2Proof

/-- One constructor per row of the opcode table.
The eight command words carry their data field `d = w[7:0]` (R55), also where R57 says it is ignored, so that no bit of an
encoding is dropped.
`frame` is the table's FRAME row, the wire format of R45: its `data_length` is the length of `payload`, and its trailer is a
field of its own, because the parser has to answer for a frame whose trailer does not match (R95; log entries 5 and 15). -/
inductive Instr where
  /-- R110. -/
  | nop (d : Byte)
  /-- R78. -/
  | crcClr (d : Byte)
  /-- R79. -/
  | crcUpd (d : Byte)
  /-- R111, reserved opcode `0b011`. -/
  | reserved3 (d : Byte)
  /-- R111, reserved opcode `0b100`. -/
  | reserved4 (d : Byte)
  /-- R86. -/
  | fpClr (d : Byte)
  /-- R87. -/
  | fpPush (d : Byte)
  /-- R111, reserved opcode `0b111`. -/
  | reserved7 (d : Byte)
  /-- R45, a whole frame on the byte stream. -/
  | frame (control : Byte) (sequence : Half) (commandId : Byte) (payload : List Byte) (checksum : Half)
deriving DecidableEq, Repr

/-- The four fields that follow the marker in the 8-byte header (R45). -/
structure Header where
  control : Byte
  dataLength : Half
  sequence : Half
  commandId : Byte
deriving DecidableEq, Repr

end Sys2Proof
end

