-- ==== Sys2Proof/WellFormed.lean ====
section
/-! DEFINITION. Which instructions have an encoding. -/

namespace Sys2Proof

/-- A command word has no illegal field (R55 to R57). A frame's payload length has to fit the 16-bit `data_length` (R48, R116):
it is the only field check the format has (R59). -/
def Instr.wf : Instr → Bool
  | .nop _ => true
  | .crcClr _ => true
  | .crcUpd _ => true
  | .reserved3 _ => true
  | .reserved4 _ => true
  | .fpClr _ => true
  | .fpPush _ => true
  | .reserved7 _ => true
  | .frame _ _ _ payload _ => decide (payload.length ≤ 65535)

end Sys2Proof
end

