-- ==== Sys2Proof/Decode.lean ====
section
/-! DEFINITION. Byte order and bit fields, the decoder (total on any bytes) and the encoder (spec 30_encoding.md). -/

namespace Sys2Proof

/-! ### Bytes and halves (R9, R32, R33) -/

/-- R9: `lo8(v) = v[7:0]`. -/
def lo8 (v : Half) : Byte := v.extractLsb' 0 8

/-- R9: `hi8(v) = v[15:8]`. -/
def hi8 (v : Half) : Byte := v.extractLsb' 8 8

/-- R9: `le16(b0, b1) = {b1, b0}`, `b0` first on the wire. -/
def le16 (b0 b1 : Byte) : Half := b1 ++ b0

/-! ### The command word (R55, R56) -/

/-- R55: `op = w[10:8]`. -/
def opField (w : CommandWord) : BitVec 3 := w.extractLsb' 8 3

/-- R55: `d = w[7:0]`. -/
def dataField (w : CommandWord) : Byte := w.extractLsb' 0 8

/-- R55, R61: the word `{op, d}`. -/
def commandWord (op : BitVec 3) (d : Byte) : CommandWord := op ++ d

/-- R56: the mask every row of the opcode map is matched under. -/
def opcodeMask : CommandWord := 0x700

/-- R56: the `match` column of the opcode map, top row first. -/
def opcodeMatches : List CommandWord := [0x000, 0x100, 0x200, 0x300, 0x400, 0x500, 0x600, 0x700]

/-- R56: "A decoder is `match = w & 0x700`." Every 11-bit word is one of the eight rows. -/
def decodeCommand (w : CommandWord) : Instr :=
  if w &&& opcodeMask = 0x000 then .nop (dataField w)
  else if w &&& opcodeMask = 0x100 then .crcClr (dataField w)
  else if w &&& opcodeMask = 0x200 then .crcUpd (dataField w)
  else if w &&& opcodeMask = 0x300 then .reserved3 (dataField w)
  else if w &&& opcodeMask = 0x400 then .reserved4 (dataField w)
  else if w &&& opcodeMask = 0x500 then .fpClr (dataField w)
  else if w &&& opcodeMask = 0x600 then .fpPush (dataField w)
  else .reserved7 (dataField w)

/-! ### The frame (R45 to R54, R63) -/

/-- R6, R46: the marker byte at frame offset 0. -/
def marker0 : Byte := 0x55

/-- R6, R46: the marker byte at frame offset 1. -/
def marker1 : Byte := 0x66

/-- R63: the header fields of a byte list that holds at least 8 bytes, by their offsets; none of a shorter one.
The marker bytes are not looked at here. -/
def readHeader : List Byte → Option Header
  | _ :: _ :: c :: l :: lh :: s :: sh :: k :: _ =>
    some { control := c, dataLength := le16 l lh, sequence := le16 s sh, commandId := k }
  | _ => none

/-- Why a byte list is no instruction. -/
inductive DecodeError where
  /-- No byte at all. -/
  | noBytes
  /-- One byte: neither a command word nor the start of a frame can be told. -/
  | oneByte
  /-- Two bytes that are no 11-bit word (a bit above bit 10 is set) and no marker. -/
  | noCommandWord
  /-- The first two bytes are not the marker (R46). -/
  | noMarker
  /-- A marker with fewer than 8 bytes (R98). -/
  | headerCut
  /-- A header with fewer than `10 + N` bytes (R53). -/
  | frameCut
deriving DecidableEq, Repr

/-- R45, R54: the frame at the front of a byte list, and the bytes after it. -/
def decodeFrame : List Byte → Except DecodeError (Instr × List Byte)
  | m0 :: m1 :: c :: l :: lh :: s :: sh :: k :: body =>
    if m0 = marker0 ∧ m1 = marker1 then
      match body.drop (le16 l lh).toNat with
      | t0 :: t1 :: rest =>
        .ok (.frame c (le16 s sh) k (body.take (le16 l lh).toNat) (le16 t0 t1), rest)
      | _ => .error .frameCut
    else .error .noMarker
  | m0 :: m1 :: _ => if m0 = marker0 ∧ m1 = marker1 then .error .headerCut else .error .noMarker
  | [_] => .error .oneByte
  | [] => .error .noBytes

/-- A byte list that is exactly one frame. -/
def decodeStream (bs : List Byte) : Option Instr :=
  match decodeFrame bs with
  | .ok (i, []) => some i
  | _ => none

/-- The decoder on bytes, total. A command word takes two bytes, the low one first and the five bits above bit 10 zero (log
entry 7); a frame starts with the marker, whose second byte `0x66` no command word can have there. -/
def decode : List Byte → Except DecodeError (Instr × List Byte)
  | [] => .error .noBytes
  | [_] => .error .oneByte
  | b0 :: b1 :: rest =>
    if b1.toNat < 8 then .ok (decodeCommand (commandWord (b1.setWidth 3) b0), rest)
    else if b0 = marker0 ∧ b1 = marker1 then decodeFrame (b0 :: b1 :: rest)
    else .error .noCommandWord

/-! ### The encoder -/

/-- R45, R63: the bytes of a frame before its trailer, `N` the payload's length. -/
def frameBody (control : Byte) (sequence : Half) (commandId : Byte) (payload : List Byte) : List Byte :=
  [marker0, marker1, control,
    lo8 (BitVec.ofNat 16 payload.length), hi8 (BitVec.ofNat 16 payload.length),
    lo8 sequence, hi8 sequence, commandId] ++ payload

/-- R33: a checksum as the wire carries it, low byte first. -/
def trailerBytes (c : Half) : List Byte := [lo8 c, hi8 c]

/-- R45: all `10 + N` bytes of a frame. -/
def frameBytes (control : Byte) (sequence : Half) (commandId : Byte) (payload : List Byte) (checksum : Half) : List Byte :=
  frameBody control sequence commandId payload ++ trailerBytes checksum

/-- R56: the command word of an instruction that is one. -/
def encodeCommand : Instr → Option CommandWord
  | .nop d => some (commandWord 0 d)
  | .crcClr d => some (commandWord 1 d)
  | .crcUpd d => some (commandWord 2 d)
  | .reserved3 d => some (commandWord 3 d)
  | .reserved4 d => some (commandWord 4 d)
  | .fpClr d => some (commandWord 5 d)
  | .fpPush d => some (commandWord 6 d)
  | .reserved7 d => some (commandWord 7 d)
  | .frame _ _ _ _ _ => none

/-- The two bytes of a command word, low byte first (log entry 7). -/
def commandBytes (w : CommandWord) : List Byte := [dataField w, (opField w).setWidth 8]

/-- The bytes of an instruction. -/
def encode : Instr → List Byte
  | .nop d => commandBytes (commandWord 0 d)
  | .crcClr d => commandBytes (commandWord 1 d)
  | .crcUpd d => commandBytes (commandWord 2 d)
  | .reserved3 d => commandBytes (commandWord 3 d)
  | .reserved4 d => commandBytes (commandWord 4 d)
  | .fpClr d => commandBytes (commandWord 5 d)
  | .fpPush d => commandBytes (commandWord 6 d)
  | .reserved7 d => commandBytes (commandWord 7 d)
  | .frame control sequence commandId payload checksum => frameBytes control sequence commandId payload checksum

/-! ### Words numbered as the opcode table numbers them -/

/-- The `n` low bytes of a number, least significant first. -/
def leBytes : Nat → Nat → List Byte
  | 0, _ => []
  | n + 1, w => BitVec.ofNat 8 w :: leBytes n (w / 256)

/-- The bytes of a table word whose bits above `nbits` are zero: two for a command word; `10 + N` for a word that starts with
the marker, `N` its bytes 3 and 4 (R54). DESIGN CHOICE (log entry 16): where `nbits` is above 16 and the two low bytes are a
command word, the bits from bit 16 up are no part of it and are ignored; R55 gives a command word no such bits. -/
def tableBytes (nbits w : Nat) : List Byte :=
  let v := w % 2 ^ nbits
  if v % 65536 = 0x6655 then leBytes (10 + v / 2 ^ 24 % 65536) v else leBytes 2 v

/-- What the decoder reads from a table word; none where it refuses. -/
def decodeTableWord (nbits w : Nat) : Option Instr :=
  match decode (tableBytes nbits w) with
  | .ok (i, _) => some i
  | .error _ => none

end Sys2Proof
end

