-- ==== Sys2Proof/Config.lean ====
section
/-! DEFINITION. The parameters a model takes as arguments (spec 00_scope.md R7). -/

namespace Sys2Proof

/-- R7: the one free parameter of the block.
`PAYLOAD_MAX` is the largest `data_length` the parser's buffer can hold, `0 ≤ PAYLOAD_MAX ≤ 65535`. -/
structure Config where
  payloadMax : Fin 65536
deriving DecidableEq, Repr

/-- R7: the default of `PAYLOAD_MAX`, with which no frame is ever too long. -/
def Config.default : Config := { payloadMax := 65535 }

/-- R7: `BUF_CAP = 10 + PAYLOAD_MAX`, derived, not free. -/
def Config.bufCap (c : Config) : Nat := 10 + c.payloadMax.val

end Sys2Proof
end

