-- ==== Sys2Proof/Machine/State.lean ====
section
/-! DEFINITION. The state of the block, the reasons a step can stop, and the machine after reset (spec 10_state.md). -/

namespace Sys2Proof.Machine

/-- R21: the events a step can output. -/
inductive Event where
  /-- R94: a frame whose checksum has been verified. -/
  | frame (ctrl : Byte) (cmd : Byte) (seq : Half) (payload : List Byte)
  /-- R95, R133. -/
  | checksumError
  /-- R96, R135. -/
  | lengthError
  /-- R111, R134: carries the 11-bit word. -/
  | illegalCommand (word : CommandWord)
deriving DecidableEq, Repr

/-- What the host can present to the block (log entries 2, 5 and 6). -/
inductive Input where
  /-- One 11-bit command word (R55). -/
  | command (w : CommandWord)
  /-- A run of stream bytes, pushed in order: `FP.BYTES` of R62, the form in which a whole frame (R45) is presented. -/
  | stream (bytes : List Byte)
  /-- The reset input, which is no command word (R112, R150). -/
  | reset
deriving DecidableEq, Repr

/-- The reasons a step can stop with a fault: none.
R149: "No outcome stops the block, locks it up or makes a later command undefined". The block's one fault in the spec's sense,
`IllegalCommand` (R134), is a next state with `ILL` set. Nobody raises a constructor of this type. -/
inductive Fault where
deriving DecidableEq, Repr

/-- The reasons an instruction can have no meaning. -/
inductive Refusal where
  /-- An arm of `exec` whose instruction has no meaning yet; no arm of this model answers it. Safe. -/
  | notModelled (mnemonic : String)
  /-- Raised by `execFrame` alone, on an ill-formed frame whose payload does not fit `data_length`; no bytes decode to such a
  term. R116: "undefined there (a model refuses it or returns an `EncodingError` value)". Safe. -/
  | payloadTooLong
deriving DecidableEq, Repr

/-- The state of the model.
The first three fields are the spec's whole architectural state, the triple `S = (CRC, BUF, ILL)` of R10.
The other three are the model's own (log entries 1 to 3): the spec's parameter, which the machine's step has to know; the
inputs the host has still to present; and the events of the latest step. R22 says that none of these three is state of the block. -/
structure State where
  /-- R11: the CRC accumulator `CRC`. -/
  crc : Half
  /-- R12: the parser's byte buffer `BUF`, oldest byte first. -/
  buf : List Byte
  /-- R14: the sticky fault bit `ILL`. -/
  ill : Bool
  /-- R7: the parameters, which no step changes. -/
  cfg : Config
  /-- R39: what the host presents next, in order. -/
  port : List Input
  /-- R21, R160: the events the latest step has output, in order. -/
  out : List Event
deriving DecidableEq, Repr

/-- R151: the state after `RESET`, with `PAYLOAD_MAX` at its default (R7) and nothing presented or output. -/
def State.reset : State :=
  { crc := 0x0000, buf := [], ill := false, cfg := Config.default, port := [], out := [] }

end Sys2Proof.Machine
end

