-- ==== Sys2Proof/Machine/Crc.lean ====
section
/-! DEFINITION. The CRC16/XMODEM function (spec 40_crc_unit.md R70 to R73). -/

namespace Sys2Proof.Machine

/-- R70: the low 16 coefficients of `x^16 + x^12 + x^5 + 1`. -/
def crcPoly : Half := 0x1021

/-- R70: "init 0x0000". -/
def crcInit : Half := 0x0000

/-- R71: one bit. -/
def crcBit (c : Half) (x : Bool) : Half :=
  if (c.getLsbD 15 ^^ x) then (c <<< 1) ^^^ crcPoly else c <<< 1

/-- R72: the eight bits of a byte, bit 7 first. -/
def crcByte (c : Half) (b : Byte) : Half :=
  [7, 6, 5, 4, 3, 2, 1, 0].foldl (fun c i => crcBit c (b.getLsbD i)) c

/-- R73: the fold of `crcByte` over a message, started from `c0`. -/
def crc16From (c0 : Half) (m : List Byte) : Half := m.foldl crcByte c0

/-- R73: the CRC of a message. -/
def crc16 (m : List Byte) : Half := crc16From crcInit m

end Sys2Proof.Machine
end

