-- ==== Sys2Proof/Machine/Operands.lean ====
section
/-! DEFINITION. What the parser reads out of a byte list: single bytes of `BUF`, the fields of a candidate, its trailer and its
checksum (spec 20_memory.md R30 to R37, 30_encoding.md R63, 41_frame_parser.md R88, R90, R91, R104). The command words have one
operand form, the data byte `d` (R57), which the decoder extracts. -/

namespace Sys2Proof.Machine

/-- R30, R104: one byte of the buffer at an index; no value outside `0..len(BUF)-1`. -/
def readByte (buf : List Byte) (i : Nat) : Option Byte := buf[i]?

/-- R9: `MemRead(i, n) = BUF[i..i+n)`, defined only when `i + n ≤ len(BUF)`. -/
def memRead (buf : List Byte) (i n : Nat) : Option (List Byte) :=
  if i + n ≤ buf.length then some ((buf.drop i).take n) else none

/-- The buffer as address and byte pairs, in rising index order (R30; log entry 14). -/
def bufCells (buf : List Byte) : List Host.Cell := (List.range buf.length).zip buf

/-- The canonical form of a list of address and byte pairs: strictly rising addresses. An index outside the buffer has no
value (R9), so no listed byte can equal what an unlisted one reads as. -/
def Memory.wf (cells : List Host.Cell) : Bool := decide ((cells.map Prod.fst).Pairwise (· < ·))

/-- R88. -/
def markerPrefix : List Byte → Bool
  | [] => false
  | [b0] => b0 == marker0
  | b0 :: b1 :: _ => b0 == marker0 && b1 == marker1

/-- R63: the payload of a candidate whose header announces `n` bytes, `B[8..8+N)`. -/
def payloadOf (B : List Byte) (n : Nat) : List Byte := (B.drop 8).take n

/-- R91: the trailer, low byte first, equals the CRC of everything before it. -/
def checksumOk (B : List Byte) (n : Nat) : Bool :=
  readByte B (8 + n) == some (lo8 (crc16 (B.take (8 + n)))) &&
    readByte B (9 + n) == some (hi8 (crc16 (B.take (8 + n))))

/-- R53, R90: the length of the frame a header announces, a mathematical integer that does not wrap. -/
def frameLength (h : Header) : Nat := 10 + h.dataLength.toNat

/-- R94: the event that delivers a verified candidate. -/
def frameEvent (h : Header) (B : List Byte) : Event :=
  .frame h.control h.commandId h.sequence (payloadOf B h.dataLength.toNat)

end Sys2Proof.Machine
end

