-- ==== Sys2Proof/Machine/Ops.lean ====
section
/-! DEFINITION. The operations every meaning is built from: the scan of the parser, the append of one stream byte, the emission
of events, the one fault of the block, reset, and the taking of an input from the port. -/

namespace Sys2Proof.Machine

/-! ### The scan (spec 41_frame_parser.md R89 to R96) -/

/-- R89: drop bytes from the front until the rest is empty or a marker prefix. -/
def align : List Byte → List Byte
  | [] => []
  | b :: bs => if markerPrefix (b :: bs) then b :: bs else align bs

/-- What one pass of the loop of R92 says of an aligned byte list: wait, or output one event and drop bytes from the front. -/
inductive Verdict where
  | wait
  | found (e : Event) (drop : Nat)
deriving DecidableEq, Repr

/-- R92, R139: the tests of one pass, in their order: the header is complete, the length fits (R96), the frame is complete, the
checksum holds (R94, R95). -/
def judge (payloadMax : Nat) (B : List Byte) : Verdict :=
  match readHeader B with
  | none => .wait
  | some h =>
    if payloadMax < h.dataLength.toNat then .found .lengthError 1
    else if B.length < frameLength h then .wait
    else if checksumOk B h.dataLength.toNat then .found (frameEvent h B) (frameLength h)
    else .found .checksumError 1

/-- R92: the loop, with a bound on its passes (R93: "there are at most `len(B) + 1` passes"). -/
def scanPasses (payloadMax : Nat) : Nat → List Byte → List Byte × List Event
  | 0, B => (B, [])
  | n + 1, B =>
    match judge payloadMax (align B) with
    | .wait => (align B, [])
    | .found e k =>
      ((scanPasses payloadMax n ((align B).drop k)).1, e :: (scanPasses payloadMax n ((align B).drop k)).2)

/-- R92: what is left of a byte list, and the events found in it. -/
def scan (payloadMax : Nat) (B : List Byte) : List Byte × List Event := scanPasses payloadMax (B.length + 1) B

/-! ### Effects on the state -/

/-- R9: `emit` appends to the events that the current step outputs. -/
def State.emit (s : State) (events : List Event) : State := { s with out := s.out ++ events }

/-- R87: append one byte to the buffer and scan. -/
def pushByte (b : Byte) (s : State) : State :=
  ({ s with buf := (scan s.cfg.payloadMax.val (s.buf ++ [b])).1 } : State).emit
    (scan s.cfg.payloadMax.val (s.buf ++ [b])).2

/-- R62: `FP.BYTES`, one push after the other. -/
def pushBytes : List Byte → State → State
  | [], s => s
  | b :: bs, s => pushBytes bs (pushByte b s)

/-- R86: empty the buffer. -/
def clearBuffer (s : State) : State := { s with buf := [] }

/-- R78: the accumulator back to its initial value. -/
def clearCrc (s : State) : State := { s with crc := crcInit }

/-- R79: fold one byte into the accumulator. -/
def updateCrc (b : Byte) (s : State) : State := { s with crc := crcByte s.crc b }

/-- R111, R134: `raise IllegalCommand(w)`, the one fault of the block. It saves nothing and transfers no control (R140), and
there is no return from it (R141). -/
def raiseIllegalCommand (w : CommandWord) (s : State) : State :=
  ({ s with ill := true } : State).emit [.illegalCommand w]

/-- R150, R151: the reset input. It emits no event. The parameter is no state of the block, and the inputs still to be
presented are the host's (log entry 19). -/
def resetBlock (s : State) : State := { s with crc := crcInit, buf := [], ill := false }

/-! ### Taking an input from the port (log entries 2 to 6) -/

/-- What the port presents to the block. -/
inductive Fetched where
  | nothing
  | reset
  | instr (i : Instr)
  | bytes (bs : List Byte)
deriving DecidableEq, Repr

/-- The instruction an input stands for, or the bytes it pushes where they are no frame. -/
def readInput : Input → Fetched
  | .reset => .reset
  | .command w => .instr (decodeCommand w)
  | .stream bs =>
    match decodeStream bs with
    | some i => .instr i
    | none => .bytes bs

/-- R39, R160: the next input, and the state in which it is carried out: the input is taken from the port and no event of an
earlier step is left. -/
def fetch (s : State) : Fetched × State :=
  match s.port with
  | [] => (.nothing, { s with out := [] })
  | x :: rest => (readInput x, { s with port := rest, out := [] })

/-- The input that stands for a table word: a command word where its bits above bit 10 are zero, the stream bytes of a frame where
the decoder reads one; none where it refuses. -/
def inputOfTableWord (nbits w : Nat) : Option Input :=
  match decodeTableWord nbits w with
  | none => none
  | some i =>
    match encodeCommand i with
    | some cw => some (.command cw)
    | none => some (.stream (tableBytes nbits w))

end Sys2Proof.Machine
end

