-- ==== Sys2Proof/Machine/CrcUnit.lean ====
section
/-! DEFINITION. The CRC unit's operations (spec 40_crc_unit.md R78, R79). -/

namespace Sys2Proof.Machine

/-- R78: `CRC.CLR`. The data field is ignored (R57). -/
def execCrcClr (_d : Byte) (s : State) : Host.Outcome State Fault Refusal := .next (clearCrc s)

/-- R79: `CRC.UPD d`. -/
def execCrcUpd (d : Byte) (s : State) : Host.Outcome State Fault Refusal := .next (updateCrc d s)

end Sys2Proof.Machine
end

