-- ==== Sys2Proof/Machine/ParserUnit.lean ====
section
/-! DEFINITION. The parser unit's operations (spec 41_frame_parser.md R86, R87) and a whole frame on its byte stream (R45). -/

namespace Sys2Proof.Machine

/-- R86: `FP.CLR`. The data field is ignored (R57). -/
def execFpClr (_d : Byte) (s : State) : Host.Outcome State Fault Refusal := .next (clearBuffer s)

/-- R87: `FP.PUSH d`. -/
def execFpPush (d : Byte) (s : State) : Host.Outcome State Fault Refusal := .next (pushByte d s)

/-- R45, R62: a frame on the byte stream is what `FP.BYTES` of its bytes does (log entry 5). A payload that does not fit
`data_length` has no bytes and is refused (R116). -/
def execFrame (control : Byte) (sequence : Half) (commandId : Byte) (payload : List Byte) (checksum : Half) (s : State) :
    Host.Outcome State Fault Refusal :=
  if payload.length ≤ 65535 then .next (pushBytes (frameBytes control sequence commandId payload checksum) s)
  else .refused .payloadTooLong

end Sys2Proof.Machine
end

