-- ==== Sys2Proof/Machine/SystemOps.lean ====
section
/-! DEFINITION. NOP and the reserved opcodes (spec 42_system_ops.md R110, R111). -/

namespace Sys2Proof.Machine

/-- R110: `NOP`. The data field is ignored (R57). -/
def execNop (_d : Byte) (s : State) : Host.Outcome State Fault Refusal := .next s

/-- R111: reserved opcode `0b011`. -/
def execReserved3 (d : Byte) (s : State) : Host.Outcome State Fault Refusal :=
  .next (raiseIllegalCommand (commandWord 3 d) s)

/-- R111: reserved opcode `0b100`. -/
def execReserved4 (d : Byte) (s : State) : Host.Outcome State Fault Refusal :=
  .next (raiseIllegalCommand (commandWord 4 d) s)

/-- R111: reserved opcode `0b111`. -/
def execReserved7 (d : Byte) (s : State) : Host.Outcome State Fault Refusal :=
  .next (raiseIllegalCommand (commandWord 7 d) s)

end Sys2Proof.Machine
end

