-- ==== Sys2Proof/Machine/Dispatch.lean ====
section
/-! DEFINITION. One arm per constructor of Instr. -/

namespace Sys2Proof.Machine

/-- The effect of one instruction. -/
def exec (i : Instr) (s : State) : Host.Outcome State Fault Refusal :=
  match i with
  | .nop d => Sys2Proof.Machine.execNop d s
  | .crcClr d => Sys2Proof.Machine.execCrcClr d s
  | .crcUpd d => Sys2Proof.Machine.execCrcUpd d s
  | .reserved3 d => Sys2Proof.Machine.execReserved3 d s
  | .reserved4 d => Sys2Proof.Machine.execReserved4 d s
  | .fpClr d => Sys2Proof.Machine.execFpClr d s
  | .fpPush d => Sys2Proof.Machine.execFpPush d s
  | .reserved7 d => Sys2Proof.Machine.execReserved7 d s
  | .frame control sequence commandId payload checksum => Sys2Proof.Machine.execFrame control sequence commandId payload checksum s

end Sys2Proof.Machine
end

