-- ==== Sys2Proof/Machine/Step.lean ====
section
/-! DEFINITION. One step of the machine (spec 00_scope.md R2, R9; 20_memory.md R39). -/

namespace Sys2Proof.Machine

/-- One step: the next input of the port, carried out whole. Where the host presents nothing, nothing happens (log entry 4). -/
def step (s : State) : Host.Outcome State Fault Refusal :=
  match fetch s with
  | (.nothing, t) => .next t
  | (.reset, t) => .next (resetBlock t)
  | (.instr i, t) => exec i t
  | (.bytes bs, t) => .next (pushBytes bs t)

/-- A list of instructions, one after the other (R39); the events gather in `out`. -/
def execAll : List Instr → State → Host.Outcome State Fault Refusal
  | [], s => .next s
  | i :: is, s =>
    match exec i s with
    | .next t => execAll is t
    | .fault r => .fault r
    | .refused r => .refused r

/-- `s` with the table word at the front of the port, so that the very next step runs it (log entry 8). Where the decoder
refuses the word there is nothing to present, and `s` stays as it is. -/
def State.withFetchWord (s : State) (nbits w : Nat) : State :=
  match inputOfTableWord nbits w with
  | some x => { s with port := x :: s.port }
  | none => s

end Sys2Proof.Machine
end

