-- ==== Sys2Proof/Machine/Assembler.lean ====
section
/-! DEFINITION. The assembler of 30_encoding.md R61 and R62: pseudo-instructions, the text form of a line and its word. Texts are
lists of characters. What R61 leaves open (blanks, the case of hex digits) is log entry 18. -/

namespace Sys2Proof.Asm

/-! ### Pseudo-instructions (R62) -/

/-- R62: the pseudo-instructions, `CRC.STR` with the ASCII codes of its text. -/
inductive Pseudo where
  | crcBytes (bs : List Byte)
  | crcStr (codes : List Byte)
  | crcMsg (bs : List Byte)
  | fpBytes (bs : List Byte)
  | fpDecode (bs : List Byte)
deriving DecidableEq, Repr

/-- R62: the expansion column. An assembler writes `d = 0` for `CRC.CLR` and `FP.CLR` (R57). -/
def Pseudo.expand : Pseudo → List Instr
  | .crcBytes bs => bs.map .crcUpd
  | .crcStr codes => codes.map .crcUpd
  | .crcMsg bs => .crcClr 0 :: bs.map .crcUpd
  | .fpBytes bs => bs.map .fpPush
  | .fpDecode bs => .fpClr 0 :: bs.map .fpPush

/-! ### Tokens of a line (R61) -/

/-- A token: a bare word, a quoted character, a quoted text. -/
inductive Token where
  | word (cs : List Char)
  | chr (c : Char)
  | str (cs : List Char)
deriving DecidableEq, Repr

/-- Where the reader stands in a line; the characters of an open word or text are held newest first. -/
inductive LexMode where
  | between
  | word (acc : List Char)
  | chrOpen
  | chrClose (c : Char)
  | str (acc : List Char)
  | closed
deriving DecidableEq, Repr

def isBlank (c : Char) : Bool := c == ' ' || c == '\t' || c == '\r'

def quoteMark : Char := '\''

def textMark : Char := Char.ofNat 34

/-- R61: the tokens of one line; `;` outside quotes starts a comment. -/
def lex : LexMode → List Char → Option (List Token)
  | .between, [] => some []
  | .closed, [] => some []
  | .word acc, [] => some [.word acc.reverse]
  | .chrOpen, [] => none
  | .chrClose _, [] => none
  | .str _, [] => none
  | .between, c :: cs =>
    if c = ';' then some []
    else if isBlank c then lex .between cs
    else if c = quoteMark then lex .chrOpen cs
    else if c = textMark then lex (.str []) cs
    else lex (.word [c]) cs
  | .closed, c :: cs =>
    if c = ';' then some []
    else if isBlank c then lex .between cs
    else none
  | .word acc, c :: cs =>
    if c = ';' then some [.word acc.reverse]
    else if isBlank c then (lex .between cs).map (Token.word acc.reverse :: ·)
    else if c = quoteMark then none
    else if c = textMark then none
    else lex (.word (c :: acc)) cs
  | .chrOpen, c :: cs => lex (.chrClose c) cs
  | .chrClose x, c :: cs => if c = quoteMark then (lex .closed cs).map (Token.chr x :: ·) else none
  | .str acc, c :: cs =>
    if c = textMark then (lex .closed cs).map (Token.str acc.reverse :: ·) else lex (.str (c :: acc)) cs

/-! ### Byte operands (R61) -/

/-- The ASCII code of a character; none above 127. -/
def asciiCode (c : Char) : Option Byte := if c.toNat < 128 then some (BitVec.ofNat 8 c.toNat) else none

def decimalDigit (c : Char) : Option Nat :=
  if '0'.toNat ≤ c.toNat ∧ c.toNat ≤ '9'.toNat then some (c.toNat - '0'.toNat) else none

def hexDigit (c : Char) : Option Nat :=
  if '0'.toNat ≤ c.toNat ∧ c.toNat ≤ '9'.toNat then some (c.toNat - '0'.toNat)
  else if 'A'.toNat ≤ c.toNat ∧ c.toNat ≤ 'F'.toNat then some (c.toNat - 'A'.toNat + 10)
  else if 'a'.toNat ≤ c.toNat ∧ c.toNat ≤ 'f'.toNat then some (c.toNat - 'a'.toNat + 10)
  else none

/-- A decimal number, digit by digit. -/
def decimalFrom : Nat → List Char → Option Nat
  | n, [] => some n
  | n, c :: cs => (decimalDigit c).bind fun d => decimalFrom (10 * n + d) cs

/-- R61: "a byte operand is `0x` and two hex digits, or a decimal number `0..255`". -/
def wordByte : List Char → Option Byte
  | [] => none
  | ['0', 'x', h, l] =>
    (hexDigit h).bind fun a => (hexDigit l).map fun b => BitVec.ofNat 8 (16 * a + b)
  | cs => (decimalFrom 0 cs).bind fun n => if n ≤ 255 then some (BitVec.ofNat 8 n) else none

/-- R61: "or one ASCII character in single quotes". -/
def tokenByte : Token → Option Byte
  | .word cs => wordByte cs
  | .chr c => asciiCode c
  | .str _ => none

/-- All of a list, or none. -/
def collect {α β : Type} (f : α → Option β) : List α → Option (List β)
  | [] => some []
  | a :: as => (f a).bind fun b => (collect f as).map (b :: ·)

/-! ### A line (R61, R62) -/

def nameNop : List Char := ['N', 'O', 'P']
def nameCrcClr : List Char := ['C', 'R', 'C', '.', 'C', 'L', 'R']
def nameCrcUpd : List Char := ['C', 'R', 'C', '.', 'U', 'P', 'D']
def nameFpClr : List Char := ['F', 'P', '.', 'C', 'L', 'R']
def nameFpPush : List Char := ['F', 'P', '.', 'P', 'U', 'S', 'H']
def nameCrcBytes : List Char := ['C', 'R', 'C', '.', 'B', 'Y', 'T', 'E', 'S']
def nameCrcStr : List Char := ['C', 'R', 'C', '.', 'S', 'T', 'R']
def nameCrcMsg : List Char := ['C', 'R', 'C', '.', 'M', 'S', 'G']
def nameFpBytes : List Char := ['F', 'P', '.', 'B', 'Y', 'T', 'E', 'S']
def nameFpDecode : List Char := ['F', 'P', '.', 'D', 'E', 'C', 'O', 'D', 'E']

def noOperand (i : Instr) : List Token → Option (List Instr)
  | [] => some [i]
  | _ :: _ => none

def oneByteOperand (f : Byte → Instr) : List Token → Option (List Instr)
  | [t] => (tokenByte t).map fun b => [f b]
  | _ => none

def byteOperands (f : List Byte → Pseudo) (ts : List Token) : Option (List Instr) :=
  (collect tokenByte ts).map fun bs => (f bs).expand

def textOperand : List Token → Option (List Instr)
  | [.str cs] => (collect asciiCode cs).map fun bs => (Pseudo.crcStr bs).expand
  | _ => none

/-- R61, R62: the instructions one mnemonic and its operands stand for. -/
def assembleTokens (m : List Char) (ts : List Token) : Option (List Instr) :=
  if m = nameNop then noOperand (.nop 0) ts
  else if m = nameCrcClr then noOperand (.crcClr 0) ts
  else if m = nameCrcUpd then oneByteOperand .crcUpd ts
  else if m = nameFpClr then noOperand (.fpClr 0) ts
  else if m = nameFpPush then oneByteOperand .fpPush ts
  else if m = nameCrcBytes then byteOperands .crcBytes ts
  else if m = nameCrcStr then textOperand ts
  else if m = nameCrcMsg then byteOperands .crcMsg ts
  else if m = nameFpBytes then byteOperands .fpBytes ts
  else if m = nameFpDecode then byteOperands .fpDecode ts
  else none

/-- R61: one line; an empty one, or one with a comment only, stands for nothing. -/
def assembleLine (line : List Char) : Option (List Instr) :=
  (lex .between line).bind fun ts =>
    match ts with
    | [] => some []
    | .word m :: ops => assembleTokens m ops
    | .chr _ :: _ => none
    | .str _ :: _ => none

/-- R61: "One command per line". -/
def assemble (lines : List (List Char)) : Option (List Instr) :=
  (collect assembleLine lines).map List.flatten

/-- R61: the command words of a program. -/
def assembleWords (lines : List (List Char)) : Option (List CommandWord) :=
  (assemble lines).bind (collect encodeCommand)

/-! ### Text of an instruction -/

def hexChar (n : Nat) : Char :=
  if n < 10 then Char.ofNat ('0'.toNat + n) else Char.ofNat ('A'.toNat + (n - 10))

/-- R61: a byte as `0x` and two hex digits. -/
def byteText (b : Byte) : List Char := ['0', 'x', hexChar (b.toNat / 16), hexChar (b.toNat % 16)]

/-- R61: a word "written as three hex digits". -/
def wordText (w : CommandWord) : List Char :=
  ['0', 'x', hexChar (w.toNat / 256), hexChar (w.toNat / 16 % 16), hexChar (w.toNat % 16)]

/-- R61: the line of an instruction that has one: the five operations, not the reserved opcodes, and not a frame. -/
def lineOf : Instr → Option (List Char)
  | .nop _ => some nameNop
  | .crcClr _ => some nameCrcClr
  | .crcUpd d => some (nameCrcUpd ++ ' ' :: byteText d)
  | .reserved3 _ => none
  | .reserved4 _ => none
  | .fpClr _ => some nameFpClr
  | .fpPush d => some (nameFpPush ++ ' ' :: byteText d)
  | .reserved7 _ => none
  | .frame _ _ _ _ _ => none

end Sys2Proof.Asm
end

