-- ==== Sys2Proof/Machine/Flags.lean ====
section
/-! DEFINITION. The status outputs of the block, all of them functions of the state (spec 10_state.md R13 to R20, R26; codes of
60_exceptions.md R137). -/

namespace Sys2Proof.Machine

/-- R18: where the parser is in a candidate. -/
inductive Phase where
  | hunt
  | mark1
  | header
  | body
deriving DecidableEq, Repr

/-- R19: the two outcomes of the document's decode that are no events. -/
inductive Result where
  | noFrame
  | incomplete
deriving DecidableEq, Repr

/-- R18, by the length of the buffer. -/
def phaseOf (buf : List Byte) : Phase :=
  if buf.length = 0 then .hunt
  else if buf.length = 1 then .mark1
  else if buf.length < 8 then .header
  else .body

/-- R19. -/
def resultOf (buf : List Byte) : Result :=
  match phaseOf buf with
  | .hunt => .noFrame
  | .mark1 => .noFrame
  | .header => .incomplete
  | .body => .incomplete

/-- R18, R137: the 2-bit code of a phase. -/
def Phase.code : Phase → BitVec 2
  | .hunt => 0
  | .mark1 => 1
  | .header => 2
  | .body => 3

/-- R19, R137: the 1-bit code of a result. -/
def Result.code : Result → BitVec 1
  | .noFrame => 0
  | .incomplete => 1

/-- R137: the 3-bit code of an event. -/
def Event.code : Event → BitVec 3
  | .frame _ _ _ _ => 1
  | .checksumError => 2
  | .lengthError => 3
  | .illegalCommand _ => 7

/-- R137: `ev_code`, 0 for a step without events. DESIGN CHOICE (log entry 23): R137 does not say how `ev_code` shows a step with
several events; here it is read at an index of the step's list, oldest event first, and is 0 past the end of any list. -/
def eventCodeAt (events : List Event) (k : Nat) : BitVec 3 :=
  match events[k]? with
  | some e => e.code
  | none => 0

/-- R20: `crc_q`, the accumulator itself. -/
def State.crcQ (s : State) : Half := s.crc

/-- R20: `crc_lo = CRC[7:0]`. -/
def State.crcLo (s : State) : Byte := lo8 s.crc

/-- R20: `crc_hi = CRC[15:8]`. -/
def State.crcHi (s : State) : Byte := hi8 s.crc

/-- R13: `BLEN = len(BUF)`. -/
def State.blen (s : State) : Nat := s.buf.length

/-- R18: `PHASE`. -/
def State.phase (s : State) : Phase := phaseOf s.buf

/-- R19: `RESULT`. -/
def State.result (s : State) : Result := resultOf s.buf

/-- R15: `H_CTRL`, no value when `BLEN < 8`. -/
def State.hCtrl (s : State) : Option Byte := (readHeader s.buf).map Header.control

/-- R15: `H_LEN`, no value when `BLEN < 8`. -/
def State.hLen (s : State) : Option Half := (readHeader s.buf).map Header.dataLength

/-- R15: `H_SEQ`, no value when `BLEN < 8`. -/
def State.hSeq (s : State) : Option Half := (readHeader s.buf).map Header.sequence

/-- R15: `H_CMD`, no value when `BLEN < 8`. -/
def State.hCmd (s : State) : Option Byte := (readHeader s.buf).map Header.commandId

/-- R16: `NEED = 10 + H_LEN - BLEN`, computed without wrap-around; no value when `BLEN < 8`. -/
def State.need (s : State) : Option Int :=
  (readHeader s.buf).map fun h => 10 + (h.dataLength.toNat : Int) - (s.buf.length : Int)

/-- R14, R26: the status output `ILL`. -/
def State.illOut (s : State) : BitVec 1 := BitVec.ofBool s.ill

/-- R26: everything a host can read, as one record. -/
structure Status where
  crcQ : Half
  crcLo : Byte
  crcHi : Byte
  blen : Nat
  phase : Phase
  result : Result
  hCtrl : Option Byte
  hLen : Option Half
  hSeq : Option Half
  hCmd : Option Byte
  need : Option Int
  ill : BitVec 1
deriving DecidableEq, Repr

/-- R26: the status values of a state. -/
def State.status (s : State) : Status :=
  { crcQ := s.crcQ, crcLo := s.crcLo, crcHi := s.crcHi, blen := s.blen, phase := s.phase, result := s.result,
    hCtrl := s.hCtrl, hLen := s.hLen, hSeq := s.hSeq, hCmd := s.hCmd, need := s.need, ill := s.illOut }

end Sys2Proof.Machine
end

