-- ==== Sys2Proof/Machine/Reference.lean ====
section
/-! DEFINITION. The reference functions of 43_reference_functions.md. "None of these functions is an operation of the block". -/

namespace Sys2Proof.Machine

/-- R115, R116: all bytes of the frame that carries a payload; undefined when the payload does not fit `data_length`. -/
def frameEncode (ctrl : Byte) (seq : Half) (cmd : Byte) (payload : List Byte) : Option (List Byte) :=
  if payload.length ≤ 65535 then
    some (frameBytes ctrl seq cmd payload (crc16 (frameBody ctrl seq cmd payload)))
  else none

/-- R117: `t0` is the first trailer byte on the wire, `t1` the second. -/
def crcVerify (b : List Byte) (t0 t1 : Byte) : Bool := t0 == lo8 (crc16 b) && t1 == hi8 (crc16 b)

/-- R118: the results of `decode_buffer`. -/
inductive DecodeResult where
  | decodedFrame (commandId : Byte) (sequence : Half) (payloadBytes : List Byte)
  | checksumError
  | lengthError
  | incompleteFrame
  | noFrameFound
deriving DecidableEq, Repr

/-- R118: the case analysis on the first event and, where there is none, on the status of the buffer. The case of an illegal
command cannot arise from pushes; it gives the status result. -/
def classify (events : List Event) (buf : List Byte) : DecodeResult :=
  match events with
  | .frame _ cmd seq payload :: _ => .decodedFrame cmd seq payload
  | .checksumError :: _ => .checksumError
  | .lengthError :: _ => .lengthError
  | .illegalCommand _ :: _ => statusResult
  | [] => statusResult
where
  statusResult : DecodeResult :=
    match resultOf buf with
    | .incomplete => .incompleteFrame
    | .noFrame => .noFrameFound

/-- R118, "without the block": one scan of the whole list. -/
def decodeBuffer (cfg : Config) (bytes : List Byte) : DecodeResult :=
  classify (scan cfg.payloadMax.val bytes).2 (scan cfg.payloadMax.val bytes).1

/-- R118: the command sequence `FP.CLR`; `FP.PUSH bytes[0]`; ... run on the block from a state, its events and its last state
looked at; none where the run stops. -/
def decodeOnBlock (s : State) (bytes : List Byte) : Option DecodeResult :=
  match execAll (Asm.Pseudo.fpDecode bytes).expand { s with out := [] } with
  | .next t => some (classify t.out t.buf)
  | .fault _ => none
  | .refused _ => none

end Sys2Proof.Machine
end

