-- ==== Sys2Proof/Safety.lean ====
section
/-! DEFINITION. What holds of the state between steps (spec 10_state.md R17, 41_frame_parser.md R105, 60_exceptions.md R134). -/

namespace Sys2Proof.Machine

/-- R17: the shape `BUF` has between steps, its four cases (a) to (d). -/
def normalForm (payloadMax : Nat) (buf : List Byte) : Bool :=
  buf == [] ||
  buf == [marker0] ||
  (decide (2 ≤ buf.length) && decide (buf.length < 8) && readByte buf 0 == some marker0 && readByte buf 1 == some marker1) ||
  (readByte buf 0 == some marker0 && readByte buf 1 == some marker1 &&
    match readHeader buf with
    | none => false
    | some h => decide (h.dataLength.toNat ≤ payloadMax) && decide (buf.length < frameLength h))

/-- R17 of a state. -/
def State.normal (s : State) : Bool := normalForm s.cfg.payloadMax.val s.buf

/-- R10: `len(BUF) ≤ BUF_CAP`. -/
def State.withinCapacity (s : State) : Bool := decide (s.buf.length ≤ s.cfg.bufCap)

/-- R134: "a premise "no fault recorded" is `ILL = 0`". -/
def State.noFault (s : State) : Bool := !s.ill

end Sys2Proof.Machine
end

