-- ==== Sys2Proof/Certificates/Slice0/Obligations.lean ====
section
/-! DEFINITION. The statements about this model, for the provers. -/

open Sys2Proof
open Sys2Proof.Machine

/-! ### Encodings -/

/-- Decoding the bytes of a well-formed instruction, whatever follows them, gives the instruction and what follows.
Covers the command words (30_encoding.md section 2) with the byte layout of log entry 7, which is the model's own, and the frame
format (section 1) with every control, length, sequence, command id, payload and trailer. -/
def Obligations.DecodeOfEncodeIsInstruction : Prop :=
  ∀ (i : Instr) (rest : List Byte), i.wf = true → decode (encode i ++ rest) = .ok (i, rest)

/-- Whatever the decoder reads encodes back to the bytes it was read from, and is well formed: no two byte strings decode to one
instruction, and no ill-formed instruction is decoded (log entry 7 for the byte layout of a command word). -/
def Obligations.EncodeOfDecodeIsBytes : Prop :=
  ∀ (bs : List Byte) (i : Instr) (rest : List Byte), decode bs = .ok (i, rest) → bs = encode i ++ rest ∧ i.wf = true

/-- R56: every 11-bit word matches exactly one row of the opcode map, and the row is the table's. -/
def Obligations.EveryCommandWordMatchesOneRow : Prop :=
  ∀ w : CommandWord,
    (opcodeMatches.filter fun m => w &&& 0x700 == m).length = 1 ∧
    encodeCommand (decodeCommand w) = some w ∧
    (w &&& 0x700 = 0x000 → decodeCommand w = .nop (w.extractLsb' 0 8)) ∧
    (w &&& 0x700 = 0x100 → decodeCommand w = .crcClr (w.extractLsb' 0 8)) ∧
    (w &&& 0x700 = 0x200 → decodeCommand w = .crcUpd (w.extractLsb' 0 8)) ∧
    (w &&& 0x700 = 0x300 → decodeCommand w = .reserved3 (w.extractLsb' 0 8)) ∧
    (w &&& 0x700 = 0x400 → decodeCommand w = .reserved4 (w.extractLsb' 0 8)) ∧
    (w &&& 0x700 = 0x500 → decodeCommand w = .fpClr (w.extractLsb' 0 8)) ∧
    (w &&& 0x700 = 0x600 → decodeCommand w = .fpPush (w.extractLsb' 0 8)) ∧
    (w &&& 0x700 = 0x700 → decodeCommand w = .reserved7 (w.extractLsb' 0 8))

/-- Words written out from the spec's encodings (R61, V4, V38), read as the opcode table numbers their bits. The layout of a
command word in bytes is log entry 7. -/
def Obligations.WrittenOutWordsDecode : Prop :=
  decodeTableWord 16 0x000 = some (.nop 0x00) ∧
  decodeTableWord 16 0x100 = some (.crcClr 0x00) ∧
  decodeTableWord 16 0x231 = some (.crcUpd 0x31) ∧
  decodeTableWord 16 0x3A5 = some (.reserved3 0xA5) ∧
  decodeTableWord 16 0x400 = some (.reserved4 0x00) ∧
  decodeTableWord 16 0x500 = some (.fpClr 0x00) ∧
  decodeTableWord 16 0x655 = some (.fpPush 0x55) ∧
  decodeTableWord 16 0x7FF = some (.reserved7 0xFF) ∧
  decode [0x55, 0x66, 0x01, 0x00, 0x00, 0x01, 0x00, 0x01, 0x54, 0xF3] = .ok (.frame 0x01 0x0001 0x01 [] 0xF354, [])

/-- R45: the bytes of a frame, field by field at their offsets; R115 builds exactly such a byte string for every payload that
fits. The two fields of two bytes are read by their numerical value, not by the model's own byte order functions. -/
def Obligations.FrameIsLaidOutByOffset : Prop :=
  ∀ (ctrl : Byte) (seq : Half) (cmd : Byte) (payload : List Byte), payload.length ≤ 65535 →
    ∃ f, frameEncode ctrl seq cmd payload = some f ∧
      f.length = 10 + payload.length ∧
      f[0]? = some 0x55 ∧ f[1]? = some 0x66 ∧ f[2]? = some ctrl ∧
      (∃ b0 b1, f[3]? = some b0 ∧ f[4]? = some b1 ∧ b0.toNat + 256 * b1.toNat = payload.length) ∧
      (∃ b0 b1, f[5]? = some b0 ∧ f[6]? = some b1 ∧ b0.toNat + 256 * b1.toNat = seq.toNat) ∧
      f[7]? = some cmd ∧
      (f.drop 8).take payload.length = payload ∧
      ∃ t0 t1, f[8 + payload.length]? = some t0 ∧ f[9 + payload.length]? = some t1 ∧
        t0.toNat + 256 * t1.toNat = (crc16 (f.take (8 + payload.length))).toNat

/-- R116: a payload that does not fit `data_length` has no frame, and the instruction is refused by name. -/
def Obligations.OverlongPayloadIsRefused : Prop :=
  ∀ (ctrl : Byte) (seq : Half) (cmd : Byte) (payload : List Byte) (checksum : Half) (s : State), 65535 < payload.length →
    frameEncode ctrl seq cmd payload = none ∧
    exec (.frame ctrl seq cmd payload checksum) s = .refused .payloadTooLong

/-- R57: for `NOP`, `CRC.CLR` and `FP.CLR` every value of `d` has the same effect. -/
def Obligations.DataFieldIsIgnored : Prop :=
  ∀ (d d' : Byte) (s : State),
    exec (.nop d) s = exec (.nop d') s ∧
    exec (.crcClr d) s = exec (.crcClr d') s ∧
    exec (.fpClr d) s = exec (.fpClr d') s

/-- R61: the line of each operation assembles to that operation, with `d = 0` where the operation has no operand (R57), and the
word of the line is `{op, d}`. Upper-case hex digits and one blank, as lineOf writes them; other spellings are log entry 18. -/
def Obligations.AssemblerReadsBackItsLines : Prop :=
  ∀ d : Byte,
    Asm.assembleLine ['N', 'O', 'P'] = some [.nop 0] ∧
    Asm.assembleLine ['C', 'R', 'C', '.', 'C', 'L', 'R'] = some [.crcClr 0] ∧
    Asm.assembleLine ['F', 'P', '.', 'C', 'L', 'R'] = some [.fpClr 0] ∧
    Asm.assembleLine (['C', 'R', 'C', '.', 'U', 'P', 'D', ' '] ++ Asm.byteText d) = some [.crcUpd d] ∧
    Asm.assembleLine (['F', 'P', '.', 'P', 'U', 'S', 'H', ' '] ++ Asm.byteText d) = some [.fpPush d] ∧
    encodeCommand (.nop 0) = some 0x000 ∧
    encodeCommand (.crcClr 0) = some 0x100 ∧
    encodeCommand (.fpClr 0) = some 0x500 ∧
    encodeCommand (.crcUpd d) = some (0x200 ||| d.setWidth 11) ∧
    encodeCommand (.fpPush d) = some (0x600 ||| d.setWidth 11)

/-! ### One step -/

/-- A step runs the decoded instruction: the next input leaves the port, no event of an earlier step is left, and the instruction
is carried out. The port is the model's own form of the host's sequence of commands (R2, R39; log entries 2, 3 and 5). -/
def Obligations.StepRunsDecodedInstruction : Prop :=
  ∀ (s : State) (rest : List Input),
    (∀ w, s.port = .command w :: rest → step s = exec (decodeCommand w) { s with port := rest, out := [] }) ∧
    (∀ bs i, s.port = .stream bs :: rest → decode bs = .ok (i, []) → encodeCommand i = none →
      step s = exec i { s with port := rest, out := [] })

/-- The table word the host places is the very next instruction (log entry 8). -/
def Obligations.PlacedWordRunsNext : Prop :=
  ∀ (s : State) (nbits w : Nat) (i : Instr), decodeTableWord nbits w = some i →
    step (s.withFetchWord nbits w) = exec i { s with out := [] }

/-- A run of stream bytes on the port, a frame or not, is pushed byte by byte (R62; log entries 5 and 6). -/
def Obligations.StreamInputIsPushed : Prop :=
  ∀ (s : State) (bs : List Byte) (rest : List Input), s.port = .stream bs :: rest →
    step s = .next (pushBytes bs { s with port := rest, out := [] }) ∧
    execAll (Asm.Pseudo.fpBytes bs).expand { s with port := rest, out := [] } =
      .next (pushBytes bs { s with port := rest, out := [] })

/-- With nothing presented, nothing changes and no event is output: the model's choice, log entry 4. -/
def Obligations.EmptyPortIdles : Prop :=
  ∀ s : State, s.port = [] → step s = .next { s with out := [] }

/-- R149: no state and no input stops the block. -/
def Obligations.NoStepStops : Prop :=
  ∀ s : State, ∃ t, step s = .next t

/-- R151: what the reset input leaves, and that it is `CRC.CLR`; `FP.CLR` plus clearing `ILL`, in the state in which the input has
left the port. No event is output (R150). -/
def Obligations.ResetInputGivesResetValues : Prop :=
  ∀ (s : State) (rest : List Input), s.port = .reset :: rest →
    ∃ t, step s = .next t ∧
      t.crc = 0x0000 ∧ t.buf = [] ∧ t.ill = false ∧ t.out = [] ∧
      t.crcQ = 0x0000 ∧ t.crcLo = 0x00 ∧ t.crcHi = 0x00 ∧ t.blen = 0 ∧ t.phase = .hunt ∧ t.result = .noFrame ∧
      t.hCtrl = none ∧ t.hLen = none ∧ t.hSeq = none ∧ t.hCmd = none ∧ t.need = none ∧
      ∃ u, execAll [.crcClr 0, .fpClr 0] { s with port := rest, out := [] } = .next u ∧ t = { u with ill := false }

/-- The machine starts in the reset state with the default parameter (R152 leaves the start open: log entry 10). -/
def Obligations.MachineStartsReset : Prop :=
  State.reset.crc = 0x0000 ∧ State.reset.buf = [] ∧ State.reset.ill = false ∧
  State.reset.cfg.payloadMax.val = 65535 ∧ State.reset.cfg.bufCap = 65545 ∧
  State.reset.normal = true ∧ State.reset.withinCapacity = true ∧ State.reset.noFault = true

/-- Commands presented in a row take effect one at a time, in order, each from the state the one before it left (20_memory.md
section 7): the run of the machine reaches what the instructions give one after the other, and the port is used up. -/
def Obligations.CommandsRunInOrder : Prop :=
  ∀ (ws : List CommandWord) (rest : List Input) (s : State), s.port = ws.map .command ++ rest →
    ∃ t u, Host.Core.run Sys2Proof.core ws.length s = .next t ∧ execAll (ws.map decodeCommand) s = .next u ∧
      t.crc = u.crc ∧ t.buf = u.buf ∧ t.ill = u.ill ∧ t.cfg = u.cfg ∧ t.port = rest

/-! ### The CRC unit -/

/-- R71: one bit. -/
def Obligations.CrcBitShiftsAndFeedsBack : Prop :=
  ∀ (c : Half) (x : Bool),
    ((c.getLsbD 15 ^^ x) = true → crcBit c x = (c <<< 1) ^^^ 0x1021) ∧
    ((c.getLsbD 15 ^^ x) = false → crcBit c x = c <<< 1) ∧
    (c <<< 1).getLsbD 0 = false ∧ ∀ i, i < 15 → (c <<< 1).getLsbD (i + 1) = c.getLsbD i

/-- R73 and R121: the fold over a message, started from 0 or continued, and the document's three vectors. -/
def Obligations.CrcOfMessages : Prop :=
  (∀ m : List Byte, crc16 m = crc16From 0x0000 m) ∧
  (∀ c0 : Half, crc16From c0 [] = c0) ∧
  (∀ (c0 : Half) (b : Byte) (m : List Byte), crc16From c0 (b :: m) = crc16From (crcByte c0 b) m) ∧
  (∀ (c0 : Half) (m n : List Byte), crc16From c0 (m ++ n) = crc16From (crc16From c0 m) n) ∧
  crc16 [] = 0x0000 ∧
  crc16 [0x31, 0x32, 0x33, 0x34, 0x35, 0x36, 0x37, 0x38, 0x39] = 0x31C3 ∧
  crc16 (List.replicate 4096 0x41) = 0xD694

/-- The equal form of one byte step that R72 adds to its definition (a derivation of the spec): the byte XORed into the top first. -/
def Obligations.CrcByteIsTopXorForm : Prop :=
  ∀ (c : Half) (b : Byte), crcByte c b = crcByteTopXor c b

/-- R74's byte-parallel equations (a derivation of the spec). -/
def Obligations.CrcByteIsParallelForm : Prop :=
  ∀ (c : Half) (b : Byte), crcByte c b = crcByteParallel c b

/-- R75's table, as printed, and the table form (a derivation of the spec). -/
def Obligations.CrcByteIsTableForm : Prop :=
  crcTable.length = 256 ∧
  (∀ i : Byte, crcTable[i.toNat]? = some (crcByte 0x0000 i)) ∧
  ∀ (c : Half) (b : Byte), crcByte c b = crcByteTable c b

/-- Linearity, R76 (a) (a derivation of the spec). -/
def Obligations.CrcIsLinear : Prop :=
  ∀ (c0 c1 : Half) (m n : List Byte), m.length = n.length →
    crc16From (c0 ^^^ c1) (List.zipWith (· ^^^ ·) m n) = crc16From c0 m ^^^ crc16From c1 n

/-- Leading zeros are invisible, and the residue is zero in big-endian order only: R76 (b) and (c) (derivations of the spec). -/
def Obligations.CrcLeadingZerosAndResidue : Prop :=
  (∀ (k : Nat) (m : List Byte), crc16 (List.replicate k 0x00 ++ m) = crc16 m) ∧
  (∀ m : List Byte, crc16 (m ++ [hi8 (crc16 m), lo8 (crc16 m)]) = 0x0000) ∧
  crc16 ([0x31, 0x32, 0x33, 0x34, 0x35, 0x36, 0x37, 0x38, 0x39] ++ [0xC3, 0x31]) = 0xBAFE

/-- A single flipped bit, in the message or in its trailer, always fails verification: R77 (a derivation of the spec). -/
def Obligations.SingleBitFlipIsAlwaysDetected : Prop :=
  (∀ b : List Byte, crcVerify b (lo8 (crc16 b)) (hi8 (crc16 b)) = true) ∧
  (∀ (pre post : List Byte) (x : Byte) (k : Nat), k < 8 →
    crc16 (pre ++ (x ^^^ ((1 : Byte) <<< k)) :: post) ≠ crc16 (pre ++ x :: post) ∧
    crcVerify (pre ++ (x ^^^ ((1 : Byte) <<< k)) :: post) (lo8 (crc16 (pre ++ x :: post))) (hi8 (crc16 (pre ++ x :: post))) = false) ∧
  (∀ (b : List Byte) (k : Nat), k < 8 →
    crcVerify b (lo8 (crc16 b) ^^^ ((1 : Byte) <<< k)) (hi8 (crc16 b)) = false ∧
    crcVerify b (lo8 (crc16 b)) (hi8 (crc16 b) ^^^ ((1 : Byte) <<< k)) = false)

/-- R78: `CRC.CLR` completes in every state, writes `CRC` and nothing else. -/
def Obligations.CrcClrClearsAccumulator : Prop :=
  (∀ w : CommandWord, w &&& 0x700 = 0x100 → decodeCommand w = .crcClr (w.extractLsb' 0 8)) ∧
  (∀ (d : Byte) (s : State), exec (.crcClr d) s = .next { s with crc := 0x0000 }) ∧
  ∀ s : State, execAll [.crcClr 0, .crcClr 0] s = exec (.crcClr 0) s

/-- R79: `CRC.UPD` completes in every state, writes `CRC` and nothing else. -/
def Obligations.CrcUpdFoldsOneByte : Prop :=
  (∀ d : Byte, decodeCommand (0x200 ||| d.setWidth 11) = .crcUpd d) ∧
  (∀ (d : Byte) (s : State), exec (.crcUpd d) s = .next { s with crc := crcByte s.crc d }) ∧
  (∀ s : State, s.crc = 0x0000 → exec (.crcUpd 0x00) s = .next s) ∧
  (∀ s : State, s.crc = 0x0000 → exec (.crcUpd 0x31) s = .next { s with crc := 0x2672 }) ∧
  ∀ s : State, s.crc = 0x2672 → exec (.crcUpd 0x32) s = .next { s with crc := 0x20B5 }

/-- `CRC.MSG` leaves the CRC of its bytes, and the unit's two byte outputs are then the trailer of the frame they start
(R80, R123: derivations of the spec). -/
def Obligations.CrcUnitComputesTrailer : Prop :=
  (∀ (m : List Byte) (s : State), execAll (Asm.Pseudo.crcMsg m).expand s = .next { s with crc := crc16 m }) ∧
  ∀ (ctrl : Byte) (seq : Half) (cmd : Byte) (payload : List Byte) (s : State), payload.length ≤ 65535 →
    ∃ t, execAll (Asm.Pseudo.crcMsg (frameBody ctrl seq cmd payload)).expand s = .next t ∧
      frameEncode ctrl seq cmd payload = some (frameBody ctrl seq cmd payload ++ [t.crcLo, t.crcHi])

/-! ### System operations -/

/-- R110: `NOP` completes in every state and changes nothing. -/
def Obligations.NopChangesNothing : Prop :=
  (∀ w : CommandWord, w &&& 0x700 = 0x000 → decodeCommand w = .nop (w.extractLsb' 0 8)) ∧
  ∀ (d : Byte) (s : State), exec (.nop d) s = .next s

/-- R111: the three reserved opcodes take the block's one fault, which sets `ILL`, emits one event with the 11-bit word and
changes nothing else; what comes later behaves as if nothing had happened. -/
def Obligations.ReservedOpcodeRaisesIllegalCommand : Prop :=
  (∀ (w : CommandWord) (s : State), (w &&& 0x700 = 0x300 ∨ w &&& 0x700 = 0x400 ∨ w &&& 0x700 = 0x700) →
    exec (decodeCommand w) s = .next { s with ill := true, out := s.out ++ [.illegalCommand w] }) ∧
  (∀ (d : Byte) (s : State),
    exec (.reserved3 d) s = .next { s with ill := true, out := s.out ++ [.illegalCommand (0x300 ||| d.setWidth 11)] } ∧
    exec (.reserved4 d) s = .next { s with ill := true, out := s.out ++ [.illegalCommand (0x400 ||| d.setWidth 11)] } ∧
    exec (.reserved7 d) s = .next { s with ill := true, out := s.out ++ [.illegalCommand (0x700 ||| d.setWidth 11)] }) ∧
  ∀ (i : Instr) (s t : State), exec i s = .next t →
    ∃ t', exec i { s with ill := true } = .next t' ∧ t'.ill = true ∧ { t' with ill := t.ill } = t

/-- R14: who sets `ILL`, who clears it, that it changes nothing else, and its reset value. -/
def Obligations.IllIsSticky : Prop :=
  (∀ (i : Instr) (s t : State), exec i s = .next t →
    (t.ill = true ↔ s.ill = true ∨ (∃ d, i = .reserved3 d) ∨ (∃ d, i = .reserved4 d) ∨ ∃ d, i = .reserved7 d)) ∧
  (∀ s t : State, step s = .next t → s.ill = true → t.ill = false → ∃ rest, s.port = .reset :: rest) ∧
  (∀ (s t : State) (rest : List Input), step s = .next t → s.port = .reset :: rest → t.ill = false) ∧
  (∀ (i : Instr) (s t : State) (b : Bool), exec i s = .next t →
    ∃ t', exec i { s with ill := b } = .next t' ∧ { t' with ill := t.ill } = t) ∧
  State.reset.ill = false

/-! ### What the operations leave alone -/

/-- Who writes what (10_state.md section 5): the frame of every instruction, for registers, buffer, fault bit, parameter and port;
events are only added (log entry 3). -/
def Obligations.InstructionsWriteOnlyTheirOwnState : Prop :=
  ∀ (i : Instr) (s t : State), exec i s = .next t →
    ((∀ d, i ≠ .crcClr d) → (∀ d, i ≠ .crcUpd d) → t.crc = s.crc) ∧
    ((∀ d, i ≠ .fpClr d) → (∀ d, i ≠ .fpPush d) → (∀ c q k p x, i ≠ .frame c q k p x) →
      t.buf = s.buf ∧ ∀ a, readByte t.buf a = readByte s.buf a) ∧
    ((∀ d, i ≠ .reserved3 d) → (∀ d, i ≠ .reserved4 d) → (∀ d, i ≠ .reserved7 d) → t.ill = s.ill) ∧
    t.cfg = s.cfg ∧ t.port = s.port ∧ ∃ ev, t.out = s.out ++ ev

/-- The two units do not disturb each other (10_state.md sections 1 and 5): no parser operation reads `CRC`, no operation of the
CRC unit reads `BUF`. -/
def Obligations.UnitsAreIndependent : Prop :=
  (∀ (s t : State) (c : Half) (i : Instr),
    ((∃ d, i = .fpClr d) ∨ (∃ d, i = .fpPush d) ∨ ∃ x q k p y, i = .frame x q k p y) →
    exec i s = .next t → exec i { s with crc := c } = .next { t with crc := c }) ∧
  (∀ (s t : State) (B : List Byte) (i : Instr), ((∃ d, i = .crcClr d) ∨ ∃ d, i = .crcUpd d) →
    exec i s = .next t → exec i { s with buf := B } = .next { t with buf := B })

/-- The buffer changes only by appending the pushed bytes and dropping from the front (00_scope.md section 5): what a byte index
reads afterwards is what it read before, shifted by the bytes dropped. -/
def Obligations.BufferOnlyAppendsAndDrops : Prop :=
  (∀ (d : Byte) (s t : State), exec (.fpPush d) s = .next t →
    ∃ k, k ≤ s.buf.length + 1 ∧ t.buf = (s.buf ++ [d]).drop k ∧ ∀ a, readByte t.buf a = readByte (s.buf ++ [d]) (k + a)) ∧
  ∀ (c : Byte) (q : Half) (k : Byte) (p : List Byte) (x : Half) (s t : State), exec (.frame c q k p x) s = .next t →
    ∃ n, t.buf = (s.buf ++ encode (.frame c q k p x)).drop n

/-! ### The parser -/

/-- R88 and R89: `align` keeps the longest suffix that is empty or a marker prefix, and what it drops leaves no trace. -/
def Obligations.AlignKeepsLongestMarkerSuffix : Prop :=
  markerPrefix [] = false ∧ markerPrefix [0x55] = true ∧ (∀ bs, markerPrefix (0x55 :: 0x66 :: bs) = true) ∧
  (∀ b, markerPrefix [b] = true → b = 0x55) ∧
  (∀ b0 b1 bs, markerPrefix (b0 :: b1 :: bs) = true → b0 = 0x55 ∧ b1 = 0x66) ∧
  ∀ B : List Byte,
    align B <:+ B ∧
    (align B = [] ∨ markerPrefix (align B) = true) ∧
    (∀ C, C <:+ B → (C = [] ∨ markerPrefix C = true) → C <:+ align B) ∧
    ∀ P, scan P B = scan P (align B)

/-- R92: the loop, case by case, in the order of its tests; the fields are read off the bytes of the aligned list. -/
def Obligations.ScanFollowsTheLoop : Prop :=
  ∀ (P : Nat) (B : List Byte),
    ((align B).length < 8 → scan P B = (align B, [])) ∧
    ∀ (m0 m1 c l lh q qh k : Byte) (body : List Byte), align B = m0 :: m1 :: c :: l :: lh :: q :: qh :: k :: body →
      (P < l.toNat + 256 * lh.toNat →
        scan P B = ((scan P ((align B).drop 1)).1, .lengthError :: (scan P ((align B).drop 1)).2)) ∧
      (l.toNat + 256 * lh.toNat ≤ P → (align B).length < 10 + (l.toNat + 256 * lh.toNat) → scan P B = (align B, [])) ∧
      (l.toNat + 256 * lh.toNat ≤ P → 10 + (l.toNat + 256 * lh.toNat) ≤ (align B).length →
        ((body[l.toNat + 256 * lh.toNat]? = some ((crc16 ((align B).take (8 + (l.toNat + 256 * lh.toNat)))).extractLsb' 0 8) ∧
            body[l.toNat + 256 * lh.toNat + 1]? =
              some ((crc16 ((align B).take (8 + (l.toNat + 256 * lh.toNat)))).extractLsb' 8 8)) →
          scan P B = ((scan P ((align B).drop (10 + (l.toNat + 256 * lh.toNat)))).1,
            .frame c k (qh ++ q) (body.take (l.toNat + 256 * lh.toNat)) ::
              (scan P ((align B).drop (10 + (l.toNat + 256 * lh.toNat)))).2)) ∧
        (¬ (body[l.toNat + 256 * lh.toNat]? = some ((crc16 ((align B).take (8 + (l.toNat + 256 * lh.toNat)))).extractLsb' 0 8) ∧
            body[l.toNat + 256 * lh.toNat + 1]? =
              some ((crc16 ((align B).take (8 + (l.toNat + 256 * lh.toNat)))).extractLsb' 8 8)) →
          scan P B = ((scan P ((align B).drop 1)).1, .checksumError :: (scan P ((align B).drop 1)).2)))

/-- `scan` returns a normal form and finds nothing in it again (R93: a derivation of the spec). -/
def Obligations.ScanReturnsNormalForm : Prop :=
  ∀ (P : Nat) (B : List Byte), normalForm P (scan P B).1 = true ∧ scan P (scan P B).1 = ((scan P B).1, [])

/-- Scanning in two goes is scanning at once: a byte that comes later cannot change a decision already taken (R118: a derivation of
the spec). -/
def Obligations.ScanInTwoGoesIsScanAtOnce : Prop :=
  ∀ (P : Nat) (A B : List Byte),
    scan P (A ++ B) = ((scan P ((scan P A).1 ++ B)).1, (scan P A).2 ++ (scan P ((scan P A).1 ++ B)).2)

/-- R86: `FP.CLR` completes in every state, empties `BUF`, emits nothing and writes nothing else. -/
def Obligations.FpClrEmptiesBuffer : Prop :=
  (∀ w : CommandWord, w &&& 0x700 = 0x500 → decodeCommand w = .fpClr (w.extractLsb' 0 8)) ∧
  (∀ (d : Byte) (s : State), exec (.fpClr d) s = .next { s with buf := [] }) ∧
  ∀ (d : Byte) (s t : State), exec (.fpClr d) s = .next t → t.blen = 0 ∧ t.phase = .hunt ∧ t.result = .noFrame

/-- R87: `FP.PUSH` completes in every state with every byte; `BUF` and the events are those of the scan, nothing else changes. -/
def Obligations.FpPushScansBuffer : Prop :=
  (∀ d : Byte, decodeCommand (0x600 ||| d.setWidth 11) = .fpPush d) ∧
  (∀ (d : Byte) (s : State),
    exec (.fpPush d) s =
      .next { s with
        buf := (scan s.cfg.payloadMax.val (s.buf ++ [d])).1,
        out := s.out ++ (scan s.cfg.payloadMax.val (s.buf ++ [d])).2 }) ∧
  ∀ s : State, s.buf = [0x55, 0x66, 0x01, 0x00, 0x00, 0x01, 0x00, 0x01, 0x54] →
    exec (.fpPush 0xF3) s = .next { s with buf := [], out := s.out ++ [.frame 0x01 0x01 1 []] }

/-- R96: a header that announces more than `PAYLOAD_MAX` is rejected, wherever the scan meets it, by one event and one dropped
byte; from a normal state that is at its eighth byte; and with the default parameter it never happens. -/
def Obligations.OverlongHeaderGivesLengthError : Prop :=
  (∀ (P : Nat) (B : List Byte) (h : Header), readHeader (align B) = some h → P < h.dataLength.toNat →
    scan P B = ((scan P ((align B).drop 1)).1, .lengthError :: (scan P ((align B).drop 1)).2)) ∧
  (∀ (s : State) (d : Byte) (h : Header), s.normal = true → s.buf.length = 7 → readHeader (s.buf ++ [d]) = some h →
    s.cfg.payloadMax.val < h.dataLength.toNat →
    exec (.fpPush d) s =
      .next { s with
        buf := (scan s.cfg.payloadMax.val ((s.buf ++ [d]).drop 1)).1,
        out := s.out ++ .lengthError :: (scan s.cfg.payloadMax.val ((s.buf ++ [d]).drop 1)).2 }) ∧
  ∀ (s : State) (d : Byte), s.cfg = Config.default →
    ∃ t ev, exec (.fpPush d) s = .next t ∧ t.out = s.out ++ ev ∧ Event.lengthError ∉ ev

/-- The phase machine (R102: a derivation of the spec), its eleven rows in their order; the two rows "by rescan" say what is
rescanned. -/
def Obligations.PhaseMachineRows : Prop :=
  ∀ (s : State) (d : Byte), s.normal = true →
    (s.phase = .hunt → d = 0x55 → exec (.fpPush d) s = .next { s with buf := [0x55] }) ∧
    (s.phase = .hunt → d ≠ 0x55 → exec (.fpPush d) s = .next s) ∧
    (s.phase = .mark1 → d = 0x66 → exec (.fpPush d) s = .next { s with buf := [0x55, 0x66] }) ∧
    (s.phase = .mark1 → d = 0x55 → exec (.fpPush d) s = .next s) ∧
    (s.phase = .mark1 → d ≠ 0x55 → d ≠ 0x66 → exec (.fpPush d) s = .next { s with buf := [] }) ∧
    (s.phase = .header → s.blen + 1 < 8 → exec (.fpPush d) s = .next { s with buf := s.buf ++ [d] }) ∧
    (∀ h, s.phase = .header → readHeader (s.buf ++ [d]) = some h → h.dataLength.toNat ≤ s.cfg.payloadMax.val →
      exec (.fpPush d) s = .next { s with buf := s.buf ++ [d] }) ∧
    (∀ h, s.phase = .header → readHeader (s.buf ++ [d]) = some h → s.cfg.payloadMax.val < h.dataLength.toNat →
      exec (.fpPush d) s = .next { s with
        buf := (scan s.cfg.payloadMax.val ((s.buf ++ [d]).drop 1)).1,
        out := s.out ++ .lengthError :: (scan s.cfg.payloadMax.val ((s.buf ++ [d]).drop 1)).2 }) ∧
    (∀ h, s.phase = .body → readHeader s.buf = some h → s.blen + 1 < 10 + h.dataLength.toNat →
      exec (.fpPush d) s = .next { s with buf := s.buf ++ [d] }) ∧
    (∀ h, s.phase = .body → readHeader s.buf = some h → s.blen + 1 = 10 + h.dataLength.toNat →
      crcVerify ((s.buf ++ [d]).take (8 + h.dataLength.toNat)) (((s.buf ++ [d])[8 + h.dataLength.toNat]?).getD 0) d = true →
      exec (.fpPush d) s = .next { s with
        buf := [],
        out := s.out ++ [.frame h.control h.commandId h.sequence (((s.buf ++ [d]).drop 8).take h.dataLength.toNat)] }) ∧
    (∀ h, s.phase = .body → readHeader s.buf = some h → s.blen + 1 = 10 + h.dataLength.toNat →
      crcVerify ((s.buf ++ [d]).take (8 + h.dataLength.toNat)) (((s.buf ++ [d])[8 + h.dataLength.toNat]?).getD 0) d = false →
      exec (.fpPush d) s = .next { s with
        buf := (scan s.cfg.payloadMax.val ((s.buf ++ [d]).drop 1)).1,
        out := s.out ++ .checksumError :: (scan s.cfg.payloadMax.val ((s.buf ++ [d]).drop 1)).2 })

/-- Every step keeps the normal form of the buffer, and with it the capacity (R17, R105: derivations of the spec). -/
def Obligations.EveryStepKeepsNormalForm : Prop :=
  ∀ s t : State, s.normal = true → step s = .next t → t.normal = true ∧ t.withinCapacity = true

/-- In normal form a push always has room (R105: a derivation of the spec). -/
def Obligations.PushNeverOverflows : Prop :=
  ∀ (s : State) (d : Byte), s.normal = true →
    s.buf.length ≤ 9 + s.cfg.payloadMax.val ∧ (s.buf ++ [d]).length ≤ s.cfg.bufCap

/-- From a normal state every run goes on for as long as one likes and stays normal (R149, R17). -/
def Obligations.RunsNeverStopAndStayNormal : Prop :=
  ∀ (k : Nat) (s : State), s.normal = true → ∃ t, Host.Core.run Sys2Proof.core k s = .next t ∧ t.normal = true

/-- Several events in one step (R101: a derivation of the spec). -/
def Obligations.PushEventBounds : Prop :=
  ∀ (s : State) (d : Byte), s.normal = true →
    ∃ t ev, exec (.fpPush d) s = .next t ∧ t.out = s.out ++ ev ∧
      ev.length ≤ s.buf.length + 1 ∧
      ∀ c k q p rest, ev = .frame c k q p :: rest → t.buf = [] ∧ rest = []

/-- Never partially trusted (10_state.md section 1, 41_frame_parser.md section 4): a `FRAME` event is output only for bytes that
stand in the buffer and the pushed byte as one whole frame with its right checksum, and it carries that frame's fields. -/
def Obligations.DeliveredFramesAreVerified : Prop :=
  ∀ (s : State) (d : Byte), ∃ t ev, exec (.fpPush d) s = .next t ∧ t.out = s.out ++ ev ∧
    ∀ c k q p, Event.frame c k q p ∈ ev →
      p.length ≤ s.cfg.payloadMax.val ∧
      ∃ f pre post, frameEncode c q k p = some f ∧ s.buf ++ [d] = pre ++ f ++ post

/-! ### Whole frames and buffers -/

/-- A frame on the byte stream completes in every state and is the pushes of its bytes, in order (R45, R62; the reading of the
FRAME row as an instruction is log entry 5). -/
def Obligations.FrameIsThePushesOfItsBytes : Prop :=
  ∀ (c : Byte) (q : Half) (k : Byte) (p : List Byte) (x : Half) (s : State), p.length ≤ 65535 →
    exec (.frame c q k p x) s = .next (pushBytes (encode (.frame c q k p x)) s) ∧
    execAll ((encode (.frame c q k p x)).map .fpPush) s = .next (pushBytes (encode (.frame c q k p x)) s)

/-- Frame round trip (R120: a derivation of the spec): from an empty buffer or a lone first marker byte, a frame with its right
checksum is delivered as exactly one event, in the step of its last byte, and the buffer is empty afterwards. -/
def Obligations.FrameRoundTrip : Prop :=
  ∀ (c : Byte) (q : Half) (k : Byte) (p : List Byte) (s : State),
    (s.buf = [] ∨ s.buf = [0x55]) → p.length ≤ s.cfg.payloadMax.val →
    ∃ f, frameEncode c q k p = some f ∧
      f = encode (.frame c q k p (crc16 (frameBody c q k p))) ∧
      exec (.frame c q k p (crc16 (frameBody c q k p))) s =
        .next { s with buf := [], out := s.out ++ [.frame c k q p] } ∧
      (∀ n, n < f.length → (pushBytes (f.take n) s).out = s.out) ∧
      decodeBuffer s.cfg f = .decodedFrame k q p

/-- A frame with a wrong trailer gives `CHECKSUM_ERROR` first and is scanned again one byte forward (R95 for a frame that starts in
an empty buffer). -/
def Obligations.WrongTrailerGivesChecksumError : Prop :=
  ∀ (c : Byte) (q : Half) (k : Byte) (p : List Byte) (x : Half) (s : State),
    s.buf = [] → p.length ≤ s.cfg.payloadMax.val → x ≠ crc16 (frameBody c q k p) →
    exec (.frame c q k p x) s =
      .next { s with
        buf := (scan s.cfg.payloadMax.val ((encode (.frame c q k p x)).drop 1)).1,
        out := s.out ++ .checksumError :: (scan s.cfg.payloadMax.val ((encode (.frame c q k p x)).drop 1)).2 }

/-- `decode_buffer` by the block's own commands, from any state, is `decode_buffer` by one scan, and it is total
(R118, R122: derivations of the spec). -/
def Obligations.DecodeOnBlockIsDecodeBuffer : Prop :=
  ∀ (s : State) (bytes : List Byte), decodeOnBlock s bytes = some (decodeBuffer s.cfg bytes)

/-- `decode_buffer` agrees with the document's algorithm, case by case, with the default parameter (R119: a derivation of the
spec). The first marker stands at the end of `pre`; `n` is the length its header announces. -/
def Obligations.DecodeBufferFollowsDocument : Prop :=
  (∀ bytes : List Byte, (∀ i : Nat, ¬ (bytes[i]? = some 0x55 ∧ bytes[i + 1]? = some 0x66)) →
    decodeBuffer Config.default bytes = .noFrameFound) ∧
  ∀ pre tail : List Byte,
    (∀ i : Nat, i < pre.length →
      ¬ ((pre ++ 0x55 :: 0x66 :: tail)[i]? = some 0x55 ∧ (pre ++ 0x55 :: 0x66 :: tail)[i + 1]? = some 0x66)) →
    (tail.length < 6 → decodeBuffer Config.default (pre ++ 0x55 :: 0x66 :: tail) = .incompleteFrame) ∧
    ∀ (c l lh q qh k : Byte) (body : List Byte), tail = c :: l :: lh :: q :: qh :: k :: body →
      (body.length < l.toNat + 256 * lh.toNat + 2 →
        decodeBuffer Config.default (pre ++ 0x55 :: 0x66 :: tail) = .incompleteFrame) ∧
      ∀ t0 t1 : Byte, body[l.toNat + 256 * lh.toNat]? = some t0 → body[l.toNat + 256 * lh.toNat + 1]? = some t1 →
        (crcVerify (0x55 :: 0x66 :: c :: l :: lh :: q :: qh :: k :: body.take (l.toNat + 256 * lh.toNat)) t0 t1 = true →
          decodeBuffer Config.default (pre ++ 0x55 :: 0x66 :: tail) =
            .decodedFrame k (qh ++ q) (body.take (l.toNat + 256 * lh.toNat))) ∧
        (crcVerify (0x55 :: 0x66 :: c :: l :: lh :: q :: qh :: k :: body.take (l.toNat + 256 * lh.toNat)) t0 t1 = false →
          decodeBuffer Config.default (pre ++ 0x55 :: 0x66 :: tail) = .checksumError)

/-! ### Status outputs -/

/-- R15: the header views are bytes 2 to 7 of the buffer when it holds 8 bytes, and have no value otherwise. -/
def Obligations.HeaderViewsNeedEightBytes : Prop :=
  (∀ s : State, s.blen < 8 → s.hCtrl = none ∧ s.hLen = none ∧ s.hSeq = none ∧ s.hCmd = none) ∧
  ∀ s : State, 8 ≤ s.blen →
    ∃ c l lh q qh k : Byte,
      s.buf[2]? = some c ∧ s.buf[3]? = some l ∧ s.buf[4]? = some lh ∧ s.buf[5]? = some q ∧ s.buf[6]? = some qh ∧
      s.buf[7]? = some k ∧
      s.hCtrl = some c ∧ s.hLen = some (lh ++ l) ∧ s.hSeq = some (qh ++ q) ∧ s.hCmd = some k

/-- `NEED` between steps (R16: a derivation of the spec). -/
def Obligations.NeedIsBetweenOneAnd65537 : Prop :=
  (∀ s : State, s.blen < 8 → s.need = none) ∧
  ∀ s : State, s.normal = true → 8 ≤ s.blen →
    ∃ (n : Int) (len : Half), s.need = some n ∧ s.hLen = some len ∧ n = 10 + (len.toNat : Int) - (s.blen : Int) ∧
      1 ≤ n ∧ n ≤ 65537

/-- R18 and R19: the phase and the result by the length of the buffer, with their codes. -/
def Obligations.PhaseAndResultByLength : Prop :=
  (∀ s : State,
    (s.blen = 0 → s.phase = .hunt ∧ s.phase.code = 0 ∧ s.result = .noFrame ∧ s.result.code = 0) ∧
    (s.blen = 1 → s.phase = .mark1 ∧ s.phase.code = 1 ∧ s.result = .noFrame ∧ s.result.code = 0) ∧
    (2 ≤ s.blen → s.blen < 8 → s.phase = .header ∧ s.phase.code = 2 ∧ s.result = .incomplete ∧ s.result.code = 1) ∧
    (8 ≤ s.blen → s.phase = .body ∧ s.phase.code = 3 ∧ s.result = .incomplete ∧ s.result.code = 1)) ∧
  ∀ s : State, s.normal = true →
    (s.phase = .hunt → s.buf = []) ∧ (s.phase = .mark1 → s.buf = [0x55]) ∧
    ((s.phase = .header ∨ s.phase = .body) → ∃ rest, s.buf = 0x55 :: 0x66 :: rest)

/-- R20: the three CRC outputs. -/
def Obligations.CrcOutputsAreTheAccumulator : Prop :=
  ∀ s : State, s.crcQ = s.crc ∧ s.crcLo = s.crc.extractLsb' 0 8 ∧ s.crcHi = s.crc.extractLsb' 8 8 ∧
    trailerBytes s.crc = [s.crcLo, s.crcHi] ∧ s.crc = s.crcHi ++ s.crcLo

/-- R137: the codes. Of `eventCodeAt` it says only what R137 does, that a step without events has code 0; how it reads a list with
events (log entry 23) is not stated. -/
def Obligations.EventAndStatusCodes : Prop :=
  (∀ c k q p, (Event.frame c k q p).code = 1) ∧ Event.checksumError.code = 2 ∧ Event.lengthError.code = 3 ∧
  (∀ w, (Event.illegalCommand w).code = 7) ∧ (∀ k, eventCodeAt [] k = 0) ∧
  Result.noFrame.code = 0 ∧ Result.incomplete.code = 1 ∧
  Phase.hunt.code = 0 ∧ Phase.mark1.code = 1 ∧ Phase.header.code = 2 ∧ Phase.body.code = 3 ∧
  ∀ e : Event, e.code ≠ 4 ∧ e.code ≠ 5 ∧ e.code ≠ 6
end

