-- ==== Sys2Proof/Laws/Bytes.lean ====
section
/-! SUPPORT. Byte order and the fields of words. -/

namespace Sys2Proof

theorem le16_toNat (a b : Byte) : (le16 a b).toNat = a.toNat + 256 * b.toNat := by
  have ha := a.isLt
  simp only [le16, BitVec.toNat_append]
  rw [← Nat.shiftLeft_add_eq_or_of_lt (by omega), Nat.shiftLeft_eq]
  omega

theorem lo8_toNat (v : Half) : (lo8 v).toNat = v.toNat % 256 := by
  simp [lo8, BitVec.extractLsb'_toNat]

theorem hi8_toNat (v : Half) : (hi8 v).toNat = v.toNat / 256 := by
  have := v.isLt
  simp [hi8, BitVec.extractLsb'_toNat, Nat.shiftRight_eq_div_pow]
  omega

@[simp] theorem le16_lo8_hi8 (v : Half) : le16 (lo8 v) (hi8 v) = v := by
  apply BitVec.eq_of_toNat_eq
  rw [le16_toNat, lo8_toNat, hi8_toNat]; omega

@[simp] theorem lo8_le16 (a b : Byte) : lo8 (le16 a b) = a := by
  apply BitVec.eq_of_toNat_eq
  have := a.isLt
  rw [lo8_toNat, le16_toNat]; omega

@[simp] theorem hi8_le16 (a b : Byte) : hi8 (le16 a b) = b := by
  apply BitVec.eq_of_toNat_eq
  have := a.isLt
  rw [hi8_toNat, le16_toNat]; omega

/-- A half is known by its two bytes. -/
theorem half_eq_iff (u v : Half) : u = v ↔ lo8 u = lo8 v ∧ hi8 u = hi8 v := by
  constructor
  · rintro rfl; exact ⟨rfl, rfl⟩
  · rintro ⟨h1, h2⟩; rw [← le16_lo8_hi8 u, ← le16_lo8_hi8 v, h1, h2]

/-- The length bytes of a frame body are read back as the payload's length. -/
theorem dataLength_readback {n : Nat} (h : n ≤ 65535) :
    (le16 (lo8 (BitVec.ofNat 16 n)) (hi8 (BitVec.ofNat 16 n))).toNat = n := by
  simp; omega

/-! ### Command words -/

/-- The bits of a command word: the data byte below bit 8, the opcode above. -/
theorem commandWord_getLsbD (o : BitVec 3) (d : Byte) (i : Nat) :
    (commandWord o d).getLsbD i = if i < 8 then d.getLsbD i else o.getLsbD (i - 8) :=
  BitVec.getLsbD_append

/-- Every command word is an opcode and a data byte. -/
theorem commandWord_fields (w : CommandWord) : commandWord (opField w) (dataField w) = w := by
  apply BitVec.eq_of_getLsbD_eq
  intro i hi
  rw [commandWord_getLsbD]
  split
  · simp [dataField, *]
  · simp only [opField, BitVec.getLsbD_extractLsb', Nat.add_sub_cancel' (show 8 ≤ i by omega)]
    simp; omega

@[simp] theorem dataField_commandWord (o : BitVec 3) (d : Byte) : dataField (commandWord o d) = d := by
  apply BitVec.eq_of_getLsbD_eq
  intro i hi
  simp only [dataField, BitVec.getLsbD_extractLsb', commandWord_getLsbD]
  simp [hi]

@[simp] theorem opField_commandWord (o : BitVec 3) (d : Byte) : opField (commandWord o d) = o := by
  apply BitVec.eq_of_getLsbD_eq
  intro i hi
  simp only [opField, BitVec.getLsbD_extractLsb', commandWord_getLsbD]
  simp [hi]

/-- Masking keeps the opcode and clears the data byte. -/
theorem commandWord_and_mask (o : BitVec 3) (d : Byte) : commandWord o d &&& 0x700 = commandWord o 0 := by
  apply BitVec.eq_of_getLsbD_eq
  intro i hi
  have h7 : (0x700 : CommandWord) = commandWord 7 0 := by decide
  rw [h7, BitVec.getLsbD_and]
  simp only [commandWord_getLsbD]
  split
  · simp
  · have : i - 8 = 0 ∨ i - 8 = 1 ∨ i - 8 = 2 := by omega
    rcases this with h | h | h <;> rw [h] <;> simp

/-- A row's match value with a data byte put in. -/
theorem commandWord_or_data (o : BitVec 3) (d : Byte) : commandWord o 0 ||| d.setWidth 11 = commandWord o d := by
  apply BitVec.eq_of_getLsbD_eq
  intro i hi
  rw [BitVec.getLsbD_or, BitVec.getLsbD_setWidth]
  simp only [commandWord_getLsbD]
  split
  · simp [hi]
  · have : d.getLsbD i = false := BitVec.getLsbD_of_ge _ _ (by omega)
    simp [this]

/-- The eight opcodes. -/
theorem opcode_cases (o : BitVec 3) : o = 0 ∨ o = 1 ∨ o = 2 ∨ o = 3 ∨ o = 4 ∨ o = 5 ∨ o = 6 ∨ o = 7 := by
  revert o; decide

/-- Decoding an encoded command. -/
theorem decodeCommand_commandWord (o : BitVec 3) (d : Byte) :
    decodeCommand (commandWord o d) =
      if o = 0 then .nop d else if o = 1 then .crcClr d else if o = 2 then .crcUpd d else if o = 3 then .reserved3 d
      else if o = 4 then .reserved4 d else if o = 5 then .fpClr d else if o = 6 then .fpPush d else .reserved7 d := by
  simp only [decodeCommand, opcodeMask, commandWord_and_mask, dataField_commandWord]
  rcases opcode_cases o with rfl | rfl | rfl | rfl | rfl | rfl | rfl | rfl <;> rfl

@[simp] theorem encodeCommand_decodeCommand (w : CommandWord) : encodeCommand (decodeCommand w) = some w := by
  rw [← commandWord_fields w, decodeCommand_commandWord]
  rcases opcode_cases (opField w) with h | h | h | h | h | h | h | h <;> rw [h] <;> rfl

end Sys2Proof
end

