-- ==== Sys2Proof/Laws/Crc.lean ====
section
/-! SUPPORT. The CRC: its bits, and its linearity. -/

namespace Sys2Proof.Machine

/-- Every bit of one CRC step. -/
theorem crcBit_getLsbD (c : Half) (x : Bool) (i : Nat) (hi : i < 16) :
    (crcBit c x).getLsbD i =
      ((decide (0 < i) && c.getLsbD (i - 1)) ^^ ((c.getLsbD 15 ^^ x) && (decide (i = 0) || decide (i = 5) || decide (i = 12)))) := by
  have hp : crcPoly.getLsbD i = (decide (i = 0) || decide (i = 5) || decide (i = 12)) := by
    revert i; decide
  unfold crcBit
  split
  · rename_i h
    rw [BitVec.getLsbD_xor, hp, h, BitVec.getLsbD_shiftLeft]
    by_cases h0 : i = 0
    · subst h0; simp
    · simp [hi, h0, Nat.pos_of_ne_zero h0]
  · rename_i h
    rw [BitVec.getLsbD_shiftLeft]
    by_cases h0 : i = 0
    · subst h0; simp_all
    · simp [hi, Nat.pos_of_ne_zero h0]; simp_all

/-- Linearity of one bit. -/
theorem crcBit_xor (c c' : Half) (x x' : Bool) : crcBit (c ^^^ c') (x ^^ x') = crcBit c x ^^^ crcBit c' x' := by
  apply BitVec.eq_of_getLsbD_eq
  intro i hi
  simp only [BitVec.getLsbD_xor, crcBit_getLsbD _ _ _ hi]
  cases decide (0 < i) <;> cases (decide (i = 0) || decide (i = 5) || decide (i = 12)) <;>
    cases c.getLsbD 15 <;> cases c'.getLsbD 15 <;> cases x <;> cases x' <;>
    cases c.getLsbD (i - 1) <;> cases c'.getLsbD (i - 1) <;> rfl

/-- A bit step can be undone: the register is known from the result and the input bit. -/
theorem crcBit_injective {c c' : Half} {x : Bool} (h : crcBit c x = crcBit c' x) : c = c' := by
  have hb (i : Nat) (hi : i < 16) := congrArg (fun v => v.getLsbD i) h
  have h15 : c.getLsbD 15 = c'.getLsbD 15 := by
    have := hb 0 (by omega)
    rw [crcBit_getLsbD _ _ _ (by omega), crcBit_getLsbD _ _ _ (by omega)] at this
    simpa using this
  apply BitVec.eq_of_getLsbD_eq
  intro i hi
  by_cases hi15 : i = 15
  · subst hi15; exact h15
  · have := hb (i + 1) (by omega)
    rw [crcBit_getLsbD _ _ _ (by omega), crcBit_getLsbD _ _ _ (by omega), h15] at this
    simpa using this

/-- The bits of a byte fed in any order of positions, linearly. -/
theorem crcBits_xor (l : List Nat) (c c' : Half) (b b' : Byte) :
    l.foldl (fun c i => crcBit c ((b ^^^ b').getLsbD i)) (c ^^^ c') =
      l.foldl (fun c i => crcBit c (b.getLsbD i)) c ^^^ l.foldl (fun c i => crcBit c (b'.getLsbD i)) c' := by
  induction l generalizing c c' with
  | nil => rfl
  | cons i l ih => rw [List.foldl_cons, List.foldl_cons, List.foldl_cons, BitVec.getLsbD_xor, crcBit_xor, ih]

/-- Linearity of one byte. -/
theorem crcByte_xor (c c' : Half) (b b' : Byte) : crcByte (c ^^^ c') (b ^^^ b') = crcByte c b ^^^ crcByte c' b' :=
  crcBits_xor _ c c' b b'

theorem crcBits_injective (l : List Nat) {c c' : Half} (b : Byte)
    (h : l.foldl (fun c i => crcBit c (b.getLsbD i)) c = l.foldl (fun c i => crcBit c (b.getLsbD i)) c') : c = c' := by
  induction l generalizing c c' with
  | nil => exact h
  | cons i l ih => exact crcBit_injective (ih h)

theorem crcByte_injective {c c' : Half} (b : Byte) (h : crcByte c b = crcByte c' b) : c = c' := crcBits_injective _ b h

@[simp] theorem crcByte_zero_zero : crcByte 0 0 = 0 := by decide

@[simp] theorem crc16From_nil (c : Half) : crc16From c [] = c := rfl

@[simp] theorem crc16From_cons (c : Half) (b : Byte) (m : List Byte) : crc16From c (b :: m) = crc16From (crcByte c b) m := rfl

theorem crc16From_append (c : Half) (m n : List Byte) : crc16From c (m ++ n) = crc16From (crc16From c m) n :=
  List.foldl_append

theorem crc16From_injective {c c' : Half} (m : List Byte) (h : crc16From c m = crc16From c' m) : c = c' := by
  induction m generalizing c c' with
  | nil => exact h
  | cons b m ih => exact crcByte_injective b (ih h)

end Sys2Proof.Machine
end

