-- ==== Sys2Proof/Laws/Encode.lean ====
section
/-! SUPPORT. The decoder and the encoder, one lemma per direction and format. -/

namespace Sys2Proof

theorem frameBody_length (c : Byte) (q : Half) (k : Byte) (p : List Byte) : (frameBody c q k p).length = 8 + p.length := by
  simp [frameBody]; omega

theorem frameBytes_length (c : Byte) (q : Half) (k : Byte) (p : List Byte) (x : Half) :
    (frameBytes c q k p x).length = 10 + p.length := by
  simp [frameBytes, frameBody_length, trailerBytes]; omega

theorem leBytes_length (n w : Nat) : (leBytes n w).length = n := by
  induction n generalizing w with
  | zero => rfl
  | succ n ih => simp [leBytes, ih]

/-- The two bytes of a command word are read back as that word. -/
theorem decode_commandBytes (w : CommandWord) (rest : List Byte) :
    decode (commandBytes w ++ rest) = .ok (decodeCommand w, rest) := by
  have hlt : ((opField w).setWidth 8).toNat < 8 := by have := (opField w).isLt; simp; omega
  have hop : ((opField w).setWidth 8).setWidth 3 = opField w := by
    apply BitVec.eq_of_toNat_eq; have := (opField w).isLt; simp
  simp only [commandBytes, List.cons_append, List.nil_append, decode]
  rw [if_pos hlt, hop, commandWord_fields]

/-- The bytes of a frame are read back as that frame. -/
theorem decodeFrame_frameBytes (c : Byte) (q : Half) (k : Byte) (p : List Byte) (x : Half) (rest : List Byte)
    (h : p.length ≤ 65535) : decodeFrame (frameBytes c q k p x ++ rest) = .ok (.frame c q k p x, rest) := by
  have hr := dataLength_readback h
  rw [le16_lo8_hi8] at hr
  simp only [frameBytes, frameBody, decodeFrame, trailerBytes, List.cons_append, List.append_assoc, List.nil_append, and_self,
    if_true, le16_lo8_hi8]
  simp only [hr, List.drop_left, List.take_left, le16_lo8_hi8]

/-- What `decodeFrame` reads is a frame, whose bytes it has read. -/
theorem decodeFrame_eq_ok {bs : List Byte} {i : Instr} {rest : List Byte} (h : decodeFrame bs = .ok (i, rest)) :
    ∃ c q k p x, i = .frame c q k p x ∧ p.length ≤ 65535 ∧ bs = frameBytes c q k p x ++ rest := by
  unfold decodeFrame at h
  split at h
  · rename_i m0 m1 c l lh s sh k body
    split at h
    · rename_i hm
      split at h
      · rename_i t0 t1 r hd
        simp only [Except.ok.injEq, Prod.mk.injEq] at h
        obtain ⟨rfl, rfl⟩ := h
        have hN : (le16 l lh).toNat + 2 ≤ body.length := by
          have := congrArg List.length hd; simp at this; omega
        have hN' := (le16 l lh).isLt
        have hpl : (body.take (le16 l lh).toNat).length = (le16 l lh).toNat := by simp only [List.length_take]; omega
        refine ⟨_, _, _, _, _, rfl, by omega, ?_⟩
        have hb : body = body.take (le16 l lh).toNat ++ t0 :: t1 :: r := by rw [← hd, List.take_append_drop]
        simp only [frameBytes, frameBody, hpl, trailerBytes, BitVec.ofNat_toNat, BitVec.setWidth_eq, lo8_le16, hi8_le16,
          hm.1, hm.2, List.cons_append, List.append_assoc, List.nil_append]
        rw [← hb]
      · cases h
    · cases h
  · split at h <;> cases h
  · cases h
  · cases h

/-- A stream that is one frame is that frame's bytes. -/
theorem decodeStream_eq_some {bs : List Byte} {i : Instr} (h : decodeStream bs = some i) :
    ∃ c q k p x, i = .frame c q k p x ∧ p.length ≤ 65535 ∧ bs = frameBytes c q k p x := by
  unfold decodeStream at h
  split at h
  · rename_i hd
    obtain ⟨c, q, k, p, x, rfl, hp, hb⟩ := decodeFrame_eq_ok hd
    cases h
    exact ⟨c, q, k, p, x, rfl, hp, by simpa using hb⟩
  · cases h

/-- A decoded command encodes to the bytes of its word. -/
theorem encode_decodeCommand (w : CommandWord) : encode (decodeCommand w) = commandBytes w := by
  rw [← commandWord_fields w, decodeCommand_commandWord]
  rcases opcode_cases (opField w) with h | h | h | h | h | h | h | h <;> rw [h] <;> rfl

/-- A decoded command is one of the eight command instructions. -/
theorem decodeCommand_cases (w : CommandWord) :
    (∃ d, decodeCommand w = .nop d) ∨ (∃ d, decodeCommand w = .crcClr d) ∨ (∃ d, decodeCommand w = .crcUpd d) ∨
    (∃ d, decodeCommand w = .reserved3 d) ∨ (∃ d, decodeCommand w = .reserved4 d) ∨ (∃ d, decodeCommand w = .fpClr d) ∨
    (∃ d, decodeCommand w = .fpPush d) ∨ (∃ d, decodeCommand w = .reserved7 d) := by
  rw [← commandWord_fields w, decodeCommand_commandWord]
  rcases opcode_cases (opField w) with h | h | h | h | h | h | h | h <;> rw [h] <;> simp

end Sys2Proof
end

