-- ==== Sys2Proof/Laws/Scan.lean ====
section
/-! SUPPORT. The scan of the parser: what `align`, one pass, the passes and the whole scan can do, each said once. -/

namespace Sys2Proof.Machine

/-! ### Headers -/

theorem readHeader_eq_none_iff (B : List Byte) : readHeader B = none ↔ B.length < 8 := by
  rcases B with _ | ⟨a0, _ | ⟨a1, _ | ⟨a2, _ | ⟨a3, _ | ⟨a4, _ | ⟨a5, _ | ⟨a6, _ | ⟨a7, B⟩⟩⟩⟩⟩⟩⟩⟩ <;> simp [readHeader]

/-- A byte list with a header is eight bytes and a rest, and the header's fields are those bytes. -/
theorem readHeader_eq_some {B : List Byte} {h : Header} (hh : readHeader B = some h) :
    ∃ m0 m1 l lh q qh body, B = m0 :: m1 :: h.control :: l :: lh :: q :: qh :: h.commandId :: body ∧
      h.dataLength = le16 l lh ∧ h.sequence = le16 q qh := by
  rcases B with _ | ⟨a0, _ | ⟨a1, _ | ⟨a2, _ | ⟨a3, _ | ⟨a4, _ | ⟨a5, _ | ⟨a6, _ | ⟨a7, B⟩⟩⟩⟩⟩⟩⟩⟩ <;>
    simp only [readHeader, reduceCtorEq, Option.some.injEq] at hh
  subst hh
  exact ⟨a0, a1, a3, a4, a5, a6, B, rfl, rfl, rfl⟩

theorem readHeader_append {B : List Byte} {h : Header} (hh : readHeader B = some h) (C : List Byte) :
    readHeader (B ++ C) = some h := by
  obtain ⟨m0, m1, l, lh, q, qh, body, rfl, h1, h2⟩ := readHeader_eq_some hh
  simp only [List.cons_append, readHeader, Option.some.injEq]
  cases h; simp_all

/-! ### `align` -/

theorem align_of_markerPrefix {B : List Byte} (h : markerPrefix B = true) : align B = B := by
  cases B with
  | nil => rfl
  | cons b bs => simp [align, h]

theorem align_suffix (B : List Byte) : align B <:+ B := by
  induction B with
  | nil => exact List.suffix_refl _
  | cons b bs ih =>
    rw [align]; split
    · exact List.suffix_refl _
    · exact ih.trans (List.suffix_cons b bs)

theorem align_length_le (B : List Byte) : (align B).length ≤ B.length := (align_suffix B).length_le

/-- The result of `align` is empty or a marker prefix. -/
theorem align_cases (B : List Byte) : align B = [] ∨ markerPrefix (align B) = true := by
  induction B with
  | nil => exact .inl rfl
  | cons b bs ih =>
    rw [align]; split
    · exact .inr ‹_›
    · exact ih

@[simp] theorem align_align (B : List Byte) : align (align B) = align B := by
  rcases align_cases B with h | h
  · rw [h]; rfl
  · exact align_of_markerPrefix h

/-- Two bytes and more of a marker prefix are the whole marker. -/
theorem markerPrefix_two {B : List Byte} (h : markerPrefix B = true) (hl : 2 ≤ B.length) :
    ∃ rest, B = marker0 :: marker1 :: rest := by
  rcases B with _ | ⟨a, _ | ⟨b, rest⟩⟩
  · simp at hl
  · simp at hl
  · simp only [markerPrefix, Bool.and_eq_true, beq_iff_eq] at h
    exact ⟨rest, by rw [h.1, h.2]⟩

theorem markerPrefix_append {B : List Byte} (h : markerPrefix B = true) (hl : 2 ≤ B.length) (C : List Byte) :
    markerPrefix (B ++ C) = true := by
  obtain ⟨rest, rfl⟩ := markerPrefix_two h hl
  simp [markerPrefix]

/-- Aligning first and appending later aligns on the same byte. -/
theorem align_append (A B : List Byte) : align (align A ++ B) = align (A ++ B) := by
  induction A with
  | nil => rfl
  | cons a as ih =>
    rw [align]; split
    · rfl
    · rename_i hmp
      rw [ih, List.cons_append, align, if_neg]
      intro hc
      apply hmp
      rcases as with _ | ⟨a', as⟩
      · rcases B with _ | ⟨b, B⟩
        · exact hc
        · simp only [List.nil_append, markerPrefix, Bool.and_eq_true, beq_iff_eq] at hc ⊢
          exact hc.1
      · simpa [markerPrefix] using hc

/-! ### One pass -/

/-- What a pass that finds something finds: a length error, a frame or a checksum error (R92). -/
theorem judge_found {P : Nat} {B : List Byte} {e : Event} {k : Nat} (h : judge P B = .found e k) :
    ∃ hd, readHeader B = some hd ∧
      ((e = .lengthError ∧ k = 1 ∧ P < hd.dataLength.toNat) ∨
       (hd.dataLength.toNat ≤ P ∧ frameLength hd ≤ B.length ∧ checksumOk B hd.dataLength.toNat = true ∧
          e = frameEvent hd B ∧ k = frameLength hd) ∨
       (hd.dataLength.toNat ≤ P ∧ frameLength hd ≤ B.length ∧ checksumOk B hd.dataLength.toNat = false ∧
          e = .checksumError ∧ k = 1)) := by
  unfold judge at h
  split at h
  · cases h
  · rename_i hd hh
    refine ⟨hd, hh, ?_⟩
    split at h
    · cases h; exact .inl ⟨rfl, rfl, ‹_›⟩
    · split at h
      · cases h
      · split at h
        · cases h; exact .inr (.inl ⟨by omega, by omega, ‹_›, rfl, rfl⟩)
        · rename_i hc
          cases h; exact .inr (.inr ⟨by omega, by omega, by simpa using hc, rfl, rfl⟩)

/-- When a pass waits: no whole header, or a length that fits and no whole frame. -/
theorem judge_wait_iff {P : Nat} {B : List Byte} :
    judge P B = .wait ↔ readHeader B = none ∨
      ∃ hd, readHeader B = some hd ∧ hd.dataLength.toNat ≤ P ∧ B.length < frameLength hd := by
  unfold judge
  constructor
  · intro h
    split at h
    · exact .inl ‹_›
    · rename_i hd hh
      split at h
      · cases h
      · split at h
        · exact .inr ⟨hd, hh, by omega, ‹_›⟩
        · split at h <;> cases h
  · rintro (h | ⟨hd, h, h1, h2⟩)
    · simp [h]
    · simp only [h]; rw [if_neg (by omega), if_pos h2]

/-- A pass that finds something drops at least one byte and no more than there are. -/
theorem judge_drop {P : Nat} {B : List Byte} {e : Event} {k : Nat} (h : judge P B = .found e k) :
    1 ≤ k ∧ k ≤ B.length := by
  obtain ⟨hd, hh, h | h | h⟩ := judge_found h
  · have : ¬ B.length < 8 := fun hl => by simp [(readHeader_eq_none_iff B).2 hl] at hh
    omega
  · have : 1 ≤ frameLength hd := by unfold frameLength; omega
    omega
  · have : ¬ B.length < 8 := fun hl => by simp [(readHeader_eq_none_iff B).2 hl] at hh
    omega

theorem checksumOk_append {A : List Byte} {n : Nat} (h : 10 + n ≤ A.length) (C : List Byte) :
    checksumOk (A ++ C) n = checksumOk A n := by
  simp [checksumOk, readByte, List.take_append_of_le_length (show 8 + n ≤ A.length by omega),
    List.getElem?_append_left (show 8 + n < A.length by omega), List.getElem?_append_left (show 9 + n < A.length by omega)]

/-- A byte appended later cannot change a decision already taken (R118). -/
theorem judge_append {P : Nat} {A : List Byte} {e : Event} {k : Nat} (h : judge P A = .found e k) (C : List Byte) :
    judge P (A ++ C) = .found e k := by
  obtain ⟨hd, hh, h | h | h⟩ := judge_found h
  · obtain ⟨rfl, rfl, h3⟩ := h
    unfold judge; rw [readHeader_append hh C]; simp only; rw [if_pos h3]
  · obtain ⟨h1, h2, h3, rfl, rfl⟩ := h
    have h4 := h2; unfold frameLength at h4
    unfold judge; rw [readHeader_append hh C]; simp only
    rw [if_neg (by omega), if_neg (by simp; omega), checksumOk_append (by omega), if_pos h3]
    simp only [frameEvent, payloadOf, Verdict.found.injEq, Event.frame.injEq, true_and, and_true]
    rw [List.drop_append_of_le_length (by omega), List.take_append_of_le_length (by simp; omega)]
  · obtain ⟨h1, h2, h3, rfl, rfl⟩ := h
    have h4 := h2; unfold frameLength at h4
    unfold judge; rw [readHeader_append hh C]; simp only
    rw [if_neg (by omega), if_neg (by simp; omega), checksumOk_append (by omega), if_neg (by simp [h3])]

/-! ### The passes and the scan -/

/-- A bound that is large enough gives what any larger one gives. -/
theorem scanPasses_eq_scan {P n : Nat} {B : List Byte} (h : B.length < n) : scanPasses P n B = scan P B := by
  unfold scan
  suffices ∀ m n (B : List Byte), B.length < m → B.length < n → scanPasses P m B = scanPasses P n B from
    this _ _ _ h (by omega)
  intro m
  induction m with
  | zero => intro n B h; omega
  | succ m ih =>
    intro n B hm hn
    obtain ⟨n, rfl⟩ : ∃ k, n = k + 1 := ⟨n - 1, by omega⟩
    simp only [scanPasses]
    split
    · rfl
    · rename_i e k hj
      have hk := judge_drop hj
      have := align_length_le B
      have hl : ((align B).drop k).length < m := by simp; omega
      have hl' : ((align B).drop k).length < n := by simp; omega
      rw [ih n _ hl hl']

/-- R92, a pass that waits. -/
theorem scan_of_wait {P : Nat} {B : List Byte} (h : judge P (align B) = .wait) : scan P B = (align B, []) := by
  simp [scan, scanPasses, h]

/-- R92, a pass that finds something. -/
theorem scan_of_found {P : Nat} {B : List Byte} {e : Event} {k : Nat} (h : judge P (align B) = .found e k) :
    scan P B = ((scan P ((align B).drop k)).1, e :: (scan P ((align B).drop k)).2) := by
  have hk := judge_drop h
  have := align_length_le B
  rw [← scanPasses_eq_scan (P := P) (n := B.length) (B := (align B).drop k) (by simp; omega)]
  simp [scan, scanPasses, h]

theorem scan_align (P : Nat) (B : List Byte) : scan P (align B) = scan P B := by
  cases h : judge P (align B) with
  | wait => rw [scan_of_wait h, scan_of_wait (by rwa [align_align]), align_align]
  | found e k => rw [scan_of_found h, scan_of_found (by rwa [align_align]), align_align]

/-- Induction along the passes of a scan. -/
theorem scan_induction {P : Nat} {motive : List Byte → Prop}
    (wait : ∀ B, judge P (align B) = .wait → motive B)
    (found : ∀ B e k, judge P (align B) = .found e k → motive ((align B).drop k) → motive B) (B : List Byte) : motive B := by
  suffices ∀ n (B : List Byte), B.length < n → motive B from this _ B (Nat.lt_succ_self _)
  intro n
  induction n with
  | zero => intro B h; omega
  | succ n ih =>
    intro B hB
    cases h : judge P (align B) with
    | wait => exact wait B h
    | found e k =>
      have hk := judge_drop h
      have := align_length_le B
      exact found B e k h (ih _ (by simp; omega))

end Sys2Proof.Machine
end

