-- ==== Sys2Proof/Laws/State.lean ====
section
/-! SUPPORT. One lemma per field per update of the state. -/

namespace Sys2Proof.Machine

variable (s : State) (ev : List Event) (b : Byte) (w : CommandWord)

@[simp] theorem State.emit_crc : (s.emit ev).crc = s.crc := rfl
@[simp] theorem State.emit_buf : (s.emit ev).buf = s.buf := rfl
@[simp] theorem State.emit_ill : (s.emit ev).ill = s.ill := rfl
@[simp] theorem State.emit_cfg : (s.emit ev).cfg = s.cfg := rfl
@[simp] theorem State.emit_port : (s.emit ev).port = s.port := rfl
@[simp] theorem State.emit_out : (s.emit ev).out = s.out ++ ev := rfl

@[simp] theorem clearBuffer_crc : (clearBuffer s).crc = s.crc := rfl
@[simp] theorem clearBuffer_buf : (clearBuffer s).buf = [] := rfl
@[simp] theorem clearBuffer_ill : (clearBuffer s).ill = s.ill := rfl
@[simp] theorem clearBuffer_cfg : (clearBuffer s).cfg = s.cfg := rfl
@[simp] theorem clearBuffer_port : (clearBuffer s).port = s.port := rfl
@[simp] theorem clearBuffer_out : (clearBuffer s).out = s.out := rfl

@[simp] theorem clearCrc_crc : (clearCrc s).crc = crcInit := rfl
@[simp] theorem clearCrc_buf : (clearCrc s).buf = s.buf := rfl
@[simp] theorem clearCrc_ill : (clearCrc s).ill = s.ill := rfl
@[simp] theorem clearCrc_cfg : (clearCrc s).cfg = s.cfg := rfl
@[simp] theorem clearCrc_port : (clearCrc s).port = s.port := rfl
@[simp] theorem clearCrc_out : (clearCrc s).out = s.out := rfl

@[simp] theorem updateCrc_crc : (updateCrc b s).crc = crcByte s.crc b := rfl
@[simp] theorem updateCrc_buf : (updateCrc b s).buf = s.buf := rfl
@[simp] theorem updateCrc_ill : (updateCrc b s).ill = s.ill := rfl
@[simp] theorem updateCrc_cfg : (updateCrc b s).cfg = s.cfg := rfl
@[simp] theorem updateCrc_port : (updateCrc b s).port = s.port := rfl
@[simp] theorem updateCrc_out : (updateCrc b s).out = s.out := rfl

@[simp] theorem raiseIllegalCommand_crc : (raiseIllegalCommand w s).crc = s.crc := rfl
@[simp] theorem raiseIllegalCommand_buf : (raiseIllegalCommand w s).buf = s.buf := rfl
@[simp] theorem raiseIllegalCommand_ill : (raiseIllegalCommand w s).ill = true := rfl
@[simp] theorem raiseIllegalCommand_cfg : (raiseIllegalCommand w s).cfg = s.cfg := rfl
@[simp] theorem raiseIllegalCommand_port : (raiseIllegalCommand w s).port = s.port := rfl
@[simp] theorem raiseIllegalCommand_out : (raiseIllegalCommand w s).out = s.out ++ [.illegalCommand w] := rfl

@[simp] theorem resetBlock_crc : (resetBlock s).crc = crcInit := rfl
@[simp] theorem resetBlock_buf : (resetBlock s).buf = [] := rfl
@[simp] theorem resetBlock_ill : (resetBlock s).ill = false := rfl
@[simp] theorem resetBlock_cfg : (resetBlock s).cfg = s.cfg := rfl
@[simp] theorem resetBlock_port : (resetBlock s).port = s.port := rfl
@[simp] theorem resetBlock_out : (resetBlock s).out = s.out := rfl

@[simp] theorem pushByte_crc : (pushByte b s).crc = s.crc := rfl
@[simp] theorem pushByte_buf : (pushByte b s).buf = (scan s.cfg.payloadMax.val (s.buf ++ [b])).1 := rfl
@[simp] theorem pushByte_ill : (pushByte b s).ill = s.ill := rfl
@[simp] theorem pushByte_cfg : (pushByte b s).cfg = s.cfg := rfl
@[simp] theorem pushByte_port : (pushByte b s).port = s.port := rfl
@[simp] theorem pushByte_out : (pushByte b s).out = s.out ++ (scan s.cfg.payloadMax.val (s.buf ++ [b])).2 := rfl

@[simp] theorem pushBytes_nil : pushBytes [] s = s := rfl
@[simp] theorem pushBytes_cons (bs : List Byte) : pushBytes (b :: bs) s = pushBytes bs (pushByte b s) := rfl

@[simp] theorem pushBytes_crc (bs : List Byte) : (pushBytes bs s).crc = s.crc := by
  induction bs generalizing s with
  | nil => rfl
  | cons b bs ih => simp [ih]

@[simp] theorem pushBytes_ill (bs : List Byte) : (pushBytes bs s).ill = s.ill := by
  induction bs generalizing s with
  | nil => rfl
  | cons b bs ih => simp [ih]

@[simp] theorem pushBytes_cfg (bs : List Byte) : (pushBytes bs s).cfg = s.cfg := by
  induction bs generalizing s with
  | nil => rfl
  | cons b bs ih => simp [ih]

@[simp] theorem pushBytes_port (bs : List Byte) : (pushBytes bs s).port = s.port := by
  induction bs generalizing s with
  | nil => rfl
  | cons b bs ih => simp [ih]

theorem pushBytes_append (as bs : List Byte) : pushBytes (as ++ bs) s = pushBytes bs (pushBytes as s) := by
  induction as generalizing s with
  | nil => rfl
  | cons a as ih => simp [ih]

end Sys2Proof.Machine
end

