-- ==== Sys2Proof/Laws/Memory.lean ====
section
/-! SUPPORT. The buffer as the block's one memory: its canonical form, reads after writes, and its normal form. -/

namespace Sys2Proof.Machine

/-- The cells of a buffer are in canonical form, whatever the buffer: so every operation keeps that form. -/
theorem bufCells_wf (buf : List Byte) : Memory.wf (bufCells buf) = true := by
  simp [Memory.wf, bufCells, List.map_fst_zip, List.pairwise_lt_range]

theorem clearBuffer_wf (s : State) : Memory.wf (bufCells (clearBuffer s).buf) = true := bufCells_wf _
theorem pushByte_wf (b : Byte) (s : State) : Memory.wf (bufCells (pushByte b s).buf) = true := bufCells_wf _
theorem resetBlock_wf (s : State) : Memory.wf (bufCells (resetBlock s).buf) = true := bufCells_wf _
theorem reset_wf : Memory.wf (bufCells State.reset.buf) = true := bufCells_wf _

/-- Equal cells are equal buffers. -/
theorem bufCells_injective {a b : List Byte} (h : bufCells a = bufCells b) : a = b := by
  have := congrArg (List.map Prod.snd) h
  simpa [bufCells, List.map_snd_zip] using this

/-- Reading the byte just appended. -/
theorem readByte_append_self (buf : List Byte) (b : Byte) : readByte (buf ++ [b]) buf.length = some b := by
  simp [readByte]

/-- An append leaves every byte before it alone. -/
theorem readByte_append_of_lt {buf : List Byte} {b : Byte} {i : Nat} (h : i < buf.length) :
    readByte (buf ++ [b]) i = readByte buf i := by
  simp [readByte, List.getElem?_append_left h]

/-- A drop shifts every read. -/
theorem readByte_drop (buf : List Byte) (k i : Nat) : readByte (buf.drop k) i = readByte buf (k + i) := by
  simp [readByte]

/-- Nothing is read outside `0..len(BUF)-1` (R30). -/
theorem readByte_eq_none_iff (buf : List Byte) (i : Nat) : readByte buf i = none ↔ buf.length ≤ i := by
  simp [readByte]

/-- A buffer in normal form is aligned, and a pass over it waits (R17). -/
theorem normalForm_waits {P : Nat} {B : List Byte} (h : normalForm P B = true) : align B = B ∧ judge P B = .wait := by
  unfold normalForm at h
  simp only [Bool.or_eq_true, Bool.and_eq_true, beq_iff_eq, decide_eq_true_eq] at h
  rcases h with ((rfl | rfl) | h) | h
  · exact ⟨rfl, rfl⟩
  · exact ⟨rfl, rfl⟩
  · refine ⟨?_, judge_wait_iff.2 (.inl ((readHeader_eq_none_iff _).2 h.1.1.2))⟩
    apply align_of_markerPrefix
    rcases B with _ | ⟨a, _ | ⟨b, r⟩⟩ <;> simp_all [markerPrefix, readByte]
  · constructor
    · apply align_of_markerPrefix
      rcases B with _ | ⟨a, _ | ⟨b, r⟩⟩ <;> simp_all [markerPrefix, readByte]
    · obtain ⟨_, h⟩ := h
      split at h
      · cases h
      · rename_i hd hh
        simp at h
        exact judge_wait_iff.2 (.inr ⟨hd, hh, h.1, h.2⟩)

/-- What a waiting pass leaves is in normal form (R93). -/
theorem normalForm_of_wait {P : Nat} {B : List Byte} (h : judge P (align B) = .wait) : normalForm P (align B) = true := by
  rcases align_cases B with h0 | h0
  · rw [h0]; rfl
  · unfold normalForm
    simp only [Bool.or_eq_true, Bool.and_eq_true, beq_iff_eq, decide_eq_true_eq]
    by_cases hl : (align B).length < 2
    · left; left; right
      revert h0 hl; generalize align B = A; intro h0 hl
      rcases A with _ | ⟨a, _ | ⟨b, r⟩⟩
      · simp [markerPrefix] at h0
      · simpa [markerPrefix] using h0
      · simp at hl
    · obtain ⟨rest, hr⟩ := markerPrefix_two h0 (by omega)
      have m0 : readByte (align B) 0 = some marker0 := by rw [hr]; rfl
      have m1 : readByte (align B) 1 = some marker1 := by rw [hr]; rfl
      rcases judge_wait_iff.1 h with hn | ⟨hd, hh, h1, h2⟩
      · left; right
        exact ⟨⟨⟨by omega, (readHeader_eq_none_iff _).1 hn⟩, m0⟩, m1⟩
      · right
        refine ⟨⟨m0, m1⟩, ?_⟩
        rw [hh]; simp [h1, h2]

/-- A scan of a buffer in normal form finds nothing and leaves it. -/
theorem scan_of_normalForm {P : Nat} {B : List Byte} (h : normalForm P B = true) : scan P B = (B, []) := by
  obtain ⟨h1, h2⟩ := normalForm_waits h
  rw [scan_of_wait (by rwa [h1]), h1]

/-- What is left by a scan is a suffix of what was scanned. -/
theorem scan_suffix (P : Nat) (B : List Byte) : (scan P B).1 <:+ B := by
  induction B using scan_induction (P := P) with
  | wait A h => rw [scan_of_wait h]; exact align_suffix A
  | found A e k h ih => rw [scan_of_found h]; exact (ih.trans (List.drop_suffix _ _)).trans (align_suffix A)

end Sys2Proof.Machine
end

