-- ==== Sys2Proof/Laws/PerInstr.lean ====
section
/-! SUPPORT. Laws stated per instruction: the number of bytes of an encoding, and that a command word's data byte comes first. -/

namespace Sys2Proof.Laws.EncodedSize

/-- The number of bytes an instruction takes: two for a command word, `10 + N` for a frame (R53). -/
def size : Instr → Nat
  | .frame _ _ _ payload _ => 10 + payload.length
  | .nop _ => 2
  | .crcClr _ => 2
  | .crcUpd _ => 2
  | .reserved3 _ => 2
  | .reserved4 _ => 2
  | .fpClr _ => 2
  | .fpPush _ => 2
  | .reserved7 _ => 2

/-- The encoding has that many bytes. -/
def Statement (i : Instr) : Prop := (encode i).length = size i

theorem nop (d : Byte) : Statement (.nop d) := rfl
theorem crcClr (d : Byte) : Statement (.crcClr d) := rfl
theorem crcUpd (d : Byte) : Statement (.crcUpd d) := rfl
theorem reserved3 (d : Byte) : Statement (.reserved3 d) := rfl
theorem reserved4 (d : Byte) : Statement (.reserved4 d) := rfl
theorem fpClr (d : Byte) : Statement (.fpClr d) := rfl
theorem fpPush (d : Byte) : Statement (.fpPush d) := rfl
theorem reserved7 (d : Byte) : Statement (.reserved7 d) := rfl
theorem frame (control : Byte) (sequence : Half) (commandId : Byte) (payload : List Byte) (checksum : Half) :
    Statement (.frame control sequence commandId payload checksum) := frameBytes_length _ _ _ _ _

end Sys2Proof.Laws.EncodedSize
end

