-- ==== Sys2Proof/Laws/Step.lean ====
section
/-! SUPPORT. What `exec` and `step` can do, each said once. -/

namespace Sys2Proof.Machine

/-- The frame instruction goes on exactly when its payload fits, and is then the pushes of its bytes. -/
theorem exec_frame_next_iff {c : Byte} {q : Half} {k : Byte} {p : List Byte} {x : Half} {s t : State} :
    exec (.frame c q k p x) s = .next t ↔ p.length ≤ 65535 ∧ t = pushBytes (frameBytes c q k p x) s := by
  simp only [exec, execFrame]
  split <;> simp_all [eq_comm]

/-- What `exec` can do when it goes on. -/
theorem exec_next_cases {i : Instr} {s t : State} (h : exec i s = .next t) :
    (∃ d, i = .nop d ∧ t = s) ∨
    (∃ d, i = .crcClr d ∧ t = clearCrc s) ∨
    (∃ d, i = .crcUpd d ∧ t = updateCrc d s) ∨
    (∃ d, i = .reserved3 d ∧ t = raiseIllegalCommand (commandWord 3 d) s) ∨
    (∃ d, i = .reserved4 d ∧ t = raiseIllegalCommand (commandWord 4 d) s) ∨
    (∃ d, i = .reserved7 d ∧ t = raiseIllegalCommand (commandWord 7 d) s) ∨
    (∃ d, i = .fpClr d ∧ t = clearBuffer s) ∨
    (∃ d, i = .fpPush d ∧ t = pushByte d s) ∨
    (∃ c q k p x, i = .frame c q k p x ∧ p.length ≤ 65535 ∧ t = pushBytes (frameBytes c q k p x) s) := by
  cases i with
  | frame c q k p x => simpa using exec_frame_next_iff.1 h
  | _ d => cases h; simp

/-- An instruction of a command word always goes on. -/
theorem exec_decodeCommand (w : CommandWord) (s : State) : ∃ t, exec (decodeCommand w) s = .next t := by
  rcases decodeCommand_cases w with ⟨d, h⟩ | ⟨d, h⟩ | ⟨d, h⟩ | ⟨d, h⟩ | ⟨d, h⟩ | ⟨d, h⟩ | ⟨d, h⟩ | ⟨d, h⟩ <;>
    rw [h] <;> exact ⟨_, rfl⟩

/-- `FP.BYTES` on the block is `pushBytes`. -/
theorem execAll_fpPush (bs : List Byte) (s : State) : execAll (bs.map .fpPush) s = .next (pushBytes bs s) := by
  induction bs generalizing s with
  | nil => rfl
  | cons b bs ih => simp only [List.map_cons, execAll, exec, execFpPush]; rw [ih]; rfl

theorem step_nothing {s : State} (h : s.port = []) : step s = .next { s with out := [] } := by simp [step, fetch, h]

theorem step_reset {s : State} {rest : List Input} (h : s.port = .reset :: rest) :
    step s = .next (resetBlock { s with port := rest, out := [] }) := by simp [step, fetch, h, readInput]

theorem step_command {s : State} {w : CommandWord} {rest : List Input} (h : s.port = .command w :: rest) :
    step s = exec (decodeCommand w) { s with port := rest, out := [] } := by simp [step, fetch, h, readInput]

theorem step_frame {s : State} {bs : List Byte} {i : Instr} {rest : List Input} (h : s.port = .stream bs :: rest)
    (hd : decodeStream bs = some i) : step s = exec i { s with port := rest, out := [] } := by
  simp [step, fetch, h, readInput, hd]

theorem step_bytes {s : State} {bs : List Byte} {rest : List Input} (h : s.port = .stream bs :: rest)
    (hd : decodeStream bs = none) : step s = .next (pushBytes bs { s with port := rest, out := [] }) := by
  simp [step, fetch, h, readInput, hd]

end Sys2Proof.Machine
end

