-- ==== Sys2Proof/Tests/Slice0.lean ====
section
/-! SUPPORT. The model's own tests: well-formedness, words written out from the spec, vectors of 95_test_vectors.md one step at a time, and
for every obligation with hypotheses a witness that meets them. Expected values are the spec's, each with its vector or rule. -/

namespace Sys2Proof.Tests

-- Each `decide +kernel` waits for every theorem before it; one after the other, they do not hold a thread each.
set_option Elab.async false

open Sys2Proof.Machine

/-- The reset state with a buffer put in. -/
def held (buf : List Byte) : State := { State.reset with buf := buf }

/-- The same with a smaller `PAYLOAD_MAX`. -/
def heldMax (payloadMax : Fin 65536) (buf : List Byte) : State :=
  { State.reset with buf := buf, cfg := { payloadMax := payloadMax } }

/-- The reset state with inputs presented. -/
def presented (inputs : List Input) : State := { State.reset with port := inputs }

/-- The buffer and the events a step leaves. -/
def seen : Host.Outcome State Fault Refusal → Option (List Byte × List Event)
  | .next t => some (t.buf, t.out)
  | .fault _ => none
  | .refused _ => none

/-- The triple of R10 a step leaves. -/
def triple : Host.Outcome State Fault Refusal → Option (Half × List Byte × Bool)
  | .next t => some (t.crc, t.buf, t.ill)
  | .fault _ => none
  | .refused _ => none

/-! ### Well-formedness (R48, R116) -/

/-- The one ill-formed term there is: a payload of 65536 bytes. -/
theorem test_wellFormed_refuses_long_payload :
    Instr.wf (.frame 0x01 1 0x01 (List.replicate 65536 0x00) 0x0000) = false := by
  rw [Instr.wf, List.length_replicate]; decide

theorem test_wellFormed_accepts_longest_payload :
    Instr.wf (.frame 0x01 1 0x01 (List.replicate 65535 0x00) 0x856C) = true := by
  rw [Instr.wf, List.length_replicate]; decide

/-! ### Words written out bit by bit from R55, R56 and R45 -/

/-- `op = 0b000`. V38: `0x0C3` is `NOP`. -/
theorem test_decode_nop : decodeCommand 0b00011000011 = .nop 0xC3 := by decide
/-- `op = 0b001`. V17: `0x1FF`. -/
theorem test_decode_crcClr : decodeCommand 0b00111111111 = .crcClr 0xFF := by decide
/-- `op = 0b010`. R61: `CRC.UPD 0x31` is `0x231`. -/
theorem test_decode_crcUpd : decodeCommand 0b01000110001 = .crcUpd 0x31 := by decide
/-- `op = 0b011`. V38: `0x3A5`. -/
theorem test_decode_reserved3 : decodeCommand 0b01110100101 = .reserved3 0xA5 := by decide
/-- `op = 0b100`. V38: `0x400`. -/
theorem test_decode_reserved4 : decodeCommand 0b10000000000 = .reserved4 0x00 := by decide
/-- `op = 0b101`. V36: `0x5AB`. -/
theorem test_decode_fpClr : decodeCommand 0b10110101011 = .fpClr 0xAB := by decide
/-- `op = 0b110`. R61: `FP.PUSH 0x55` is `0x655`. -/
theorem test_decode_fpPush : decodeCommand 0b11001010101 = .fpPush 0x55 := by decide
/-- `op = 0b111`. V38: `0x7FF`. -/
theorem test_decode_reserved7 : decodeCommand 0b11111111111 = .reserved7 0xFF := by decide
/-- V30: `55 66 FF 01 00 FF FF FF 12 05 23`. -/
theorem test_decode_frame :
    decode [0x55, 0x66, 0xFF, 0x01, 0x00, 0xFF, 0xFF, 0xFF, 0x12, 0x05, 0x23] =
      .ok (.frame 0xFF 0xFFFF 0xFF [0x12] 0x2305, []) := by decide
/-- V31: `00 01` at offset 3 is length 256, `34 12` at offset 5 is sequence `0x1234`. -/
theorem test_readHeader_little_endian :
    readHeader [0x55, 0x66, 0x01, 0x00, 0x01, 0x34, 0x12, 0x25] =
      some { control := 0x01, dataLength := 256, sequence := 0x1234, commandId := 0x25 } := by decide

theorem test_decode_rejects_bit_above_ten : decode [0x31, 0x0A] = .error .noCommandWord := by decide
theorem test_decode_rejects_cut_frame :
    decode [0x55, 0x66, 0x01, 0x00, 0x00, 0x01, 0x00, 0x01, 0x54] = .error .frameCut := by decide
theorem test_decode_rejects_cut_header : decode [0x55, 0x66, 0x01] = .error .headerCut := by decide
theorem test_decode_rejects_nothing : decode [] = .error .noBytes ∧ decode [0x55] = .error .oneByte := by decide

/-! ### The CRC function (V10, V11, V12, V14) -/

theorem test_crcBit_rows :
    crcBit 0x0000 false = 0x0000 ∧ crcBit 0x0000 true = 0x1021 ∧ crcBit 0x8000 false = 0x1021 ∧ crcBit 0x8000 true = 0x0000 ∧
    crcBit 0x4000 false = 0x8000 ∧ crcBit 0xFFFF false = 0xEFDF ∧ crcBit 0xFFFF true = 0xFFFE ∧ crcBit 0x1021 true = 0x3063 := by
  decide
theorem test_crcByte_rows :
    crcByte 0x0000 0x80 = 0x9188 ∧ crcByte 0x0000 0xFF = 0x1EF0 ∧ crcByte 0xFFFF 0x00 = 0xE1F0 ∧ crcByte 0xFFFF 0x01 = 0xF1D1 ∧
    crcByte 0xFFFF 0x80 = 0x7078 ∧ crcByte 0xFFFF 0xFF = 0xFF00 ∧ crcByte 0x2672 0x32 = 0x20B5 := by decide
theorem test_crc_forms_agree_on_a_row :
    crcByteTopXor 0x2672 0x32 = 0x20B5 ∧ crcByteParallel 0x2672 0x32 = 0x20B5 ∧ crcByteTable 0x2672 0x32 = 0x20B5 := by decide
/-- V1. -/
theorem test_crc16_check : crc16 [0x31, 0x32, 0x33, 0x34, 0x35, 0x36, 0x37, 0x38, 0x39] = 0x31C3 := by decide +kernel

/-! ### One step of each instruction -/

/-- V17, V38. -/
theorem test_exec_nop : triple (exec (.nop 0xC3) { held [0x55] with crc := 0x58E5 }) = some (0x58E5, [0x55], false) := by decide
/-- V17. -/
theorem test_exec_crcClr : triple (exec (.crcClr 0xFF) { held [0x55] with crc := 0x31C3 }) = some (0x0000, [0x55], false) := by decide
/-- V17. -/
theorem test_exec_crcUpd : triple (exec (.crcUpd 0x00) { held [0x55] with crc := 0x31C3 }) = some (0xE572, [0x55], false) := by decide
/-- V38. -/
theorem test_exec_reserved3 :
    exec (.reserved3 0xA5) (held [0x55]) = .next { held [0x55] with ill := true, out := [.illegalCommand 0x3A5] } := by rfl
/-- V38. -/
theorem test_exec_reserved4 :
    exec (.reserved4 0x00) (held [0x55]) = .next { held [0x55] with ill := true, out := [.illegalCommand 0x400] } := by rfl
/-- V38, with `ILL` already 1. -/
theorem test_exec_reserved7 :
    exec (.reserved7 0xFF) { held [0x55] with ill := true } =
      .next { held [0x55] with ill := true, out := [.illegalCommand 0x7FF] } := by rfl
/-- V36. -/
theorem test_exec_fpClr : seen (exec (.fpClr 0xAB) (held [0x55, 0x66, 0x01, 0x00, 0x00])) = some ([], []) := by decide
/-- V20, last push. -/
theorem test_exec_fpPush_frame :
    seen (exec (.fpPush 0xF3) (held [0x55, 0x66, 0x01, 0x00, 0x00, 0x01, 0x00, 0x01, 0x54])) =
      some ([], [.frame 0x01 0x01 1 []]) := by decide +kernel
/-- V24, push 22: two events in one step. -/
theorem test_exec_fpPush_two_events :
    seen (exec (.fpPush 0x00) (held [0x55, 0x66, 0x01, 0x0C, 0x00, 0x09, 0x00, 0x0E,
      0x55, 0x66, 0x01, 0x02, 0x00, 0x07, 0x00, 0x0D, 0x01, 0x02, 0x97, 0x97, 0x00])) =
      some ([], [.checksumError, .frame 0x01 0x0D 7 [0x01, 0x02]]) := by decide +kernel
/-- V39, from a lone first marker byte (R120). -/
theorem test_exec_frame :
    seen (exec (.frame 0x01 65535 0x01 [] 0x08F8) (held [0x55])) = some ([], [.frame 0x01 0x01 65535 []]) := by decide +kernel
/-- V23: the trailer of the V4 frame high byte first. -/
theorem test_exec_frame_swapped_trailer :
    seen (exec (.frame 0x01 1 0x01 [] 0x54F3) (held [])) = some ([], [.checksumError]) := by decide +kernel

/-! ### Corner cases of the parser -/

/-- V34, byte 10. -/
theorem test_marker_in_failed_trailer_is_kept :
    seen (exec (.fpPush 0x66) (held [0x55, 0x66, 0x01, 0x00, 0x00, 0x01, 0x00, 0x01, 0x55])) =
      some ([0x55, 0x66], [.checksumError]) := by decide +kernel
/-- V33, `PAYLOAD_MAX = 16`, byte 8 of a header that announces 17. -/
theorem test_length_error :
    seen (exec (.fpPush 0x01) (heldMax 16 [0x55, 0x66, 0x01, 0x11, 0x00, 0x01, 0x00])) = some ([], [.lengthError]) := by decide
/-- V37, byte 8 with the default parameter. -/
theorem test_longest_header_waits :
    (match exec (.fpPush 0x00) (held [0x55, 0x66, 0x00, 0xFF, 0xFF, 0x00, 0x00]) with
      | .next t => (t.need, t.hLen, t.phase.code, t.out)
      | _ => (none, none, 0, [])) = (some 65537, some 0xFFFF, 3, []) := by decide
/-- V22 and V26: `55 55` and `55 67`. -/
theorem test_second_marker_byte :
    seen (exec (.fpPush 0x55) (held [0x55])) = some ([0x55], []) ∧ seen (exec (.fpPush 0x67) (held [0x55])) = some ([], []) := by decide

/-! ### Steps, reset and placed words -/

/-- V38, the reset row. -/
theorem test_reset_input :
    step { presented [.reset, .command 0x241] with crc := 0x58E5, buf := [0x55], ill := true } =
      .next (presented [.command 0x241]) := by rfl
/-- Log entry 16: bits from bit 16 up are no part of a command word; a bit of 15:11 makes it none. -/
theorem test_table_word_above_bit_ten :
    decodeTableWord 32 0x10231 = some (.crcUpd 0x31) ∧ decodeTableWord 16 0x0A31 = none := by decide
theorem test_placed_command_runs :
    triple (step (State.reset.withFetchWord 16 0x241)) = some (0x58E5, [], false) := by decide
/-- The FRAME row with every other bit zero: `CHECKSUM_ERROR`, since the CRC of those 8 bytes is not zero. -/
theorem test_placed_frame_runs :
    decodeTableWord 16 0x6655 = some (.frame 0x00 0 0x00 [] 0x0000) ∧
    seen (step (State.reset.withFetchWord 16 0x6655)) = some ([], [.checksumError]) := by decide +kernel
/-- A stream of bytes that is no frame is pushed all the same: V27. -/
theorem test_stream_is_pushed :
    seen (step (presented [.stream [0x55, 0x55, 0x66, 0x66]])) = some ([0x55, 0x66, 0x66], []) := by decide

/-! ### Status outputs and the reference functions -/

/-- P2, step 18. -/
theorem test_status_in_body :
    { held [0x55, 0x66, 0x01, 0x00, 0x00, 0x01, 0x00, 0x01] with crc := 0xF354 }.status =
      { crcQ := 0xF354, crcLo := 0x54, crcHi := 0xF3, blen := 8, phase := .body, result := .incomplete,
        hCtrl := some 0x01, hLen := some 0, hSeq := some 1, hCmd := some 0x01, need := some 2, ill := 0 } := by decide
/-- V5. -/
theorem test_frameEncode :
    frameEncode 0x01 1 0x01 [0x00, 0x00, 0x00, 0x01] =
      some [0x55, 0x66, 0x01, 0x04, 0x00, 0x01, 0x00, 0x01, 0x00, 0x00, 0x00, 0x01, 0x51, 0x0A] := by decide +kernel
/-- V21, seven and ten bytes; V22. -/
theorem test_decodeBuffer :
    decodeBuffer Config.default [0x55, 0x66, 0x01, 0x00, 0x00, 0x01, 0x00] = .incompleteFrame ∧
    decodeBuffer Config.default [0x55, 0x66, 0x01, 0x00, 0x00, 0x01, 0x00, 0x01, 0x54, 0xF3] = .decodedFrame 0x01 1 [] ∧
    decodeBuffer Config.default [0x66, 0x55] = .noFrameFound := by decide +kernel
/-- V6. -/
theorem test_crcVerify :
    crcVerify [0x31, 0x32, 0x33, 0x34, 0x35, 0x36, 0x37, 0x38, 0x39] 0xC3 0x31 = true ∧
    crcVerify [0x31, 0x32, 0x33, 0x34, 0x35, 0x36, 0x37, 0x38, 0x39] 0x31 0xC3 = false := by decide +kernel
theorem test_memory :
    memRead [0x55, 0x66, 0x01] 1 2 = some [0x66, 0x01] ∧ memRead [0x55, 0x66, 0x01] 2 2 = none ∧
    bufCells [0x55, 0x66] = [(0, 0x55), (1, 0x66)] ∧ Memory.wf (bufCells [0x55, 0x66]) = true := by decide

/-! ### The assembler (R61, R62) -/

/-- `CRC.MSG '1' 50 0x33 ; check` -/
theorem test_assemble_message :
    Asm.assembleWords [['C', 'R', 'C', '.', 'M', 'S', 'G', ' ', '\'', '1', '\'', ' ', '5', '0', ' ', '0', 'x', '3', '3', ' ', ';', 'c']] =
      some [0x100, 0x231, 0x232, 0x233] := by decide
/-- `CRC.STR "A;"` and `FP.DECODE 0x55`, one line each. -/
theorem test_assemble_text_and_decode :
    Asm.assembleWords [['C', 'R', 'C', '.', 'S', 'T', 'R', ' ', Char.ofNat 34, 'A', ';', Char.ofNat 34],
      ['F', 'P', '.', 'D', 'E', 'C', 'O', 'D', 'E', ' ', '0', 'x', '5', '5']] = some [0x241, 0x23B, 0x500, 0x655] := by decide
theorem test_assemble_rejects :
    Asm.assembleLine ['n', 'o', 'p'] = none ∧ Asm.assembleLine ['C', 'R', 'C', '.', 'U', 'P', 'D', ' ', '2', '5', '6'] = none := by decide

/-! ### Witnesses: a state and operands that meet the hypotheses of each obligation -/

theorem witness_DecodeOfEncodeIsInstruction :
    Instr.wf (.frame 0xFF 0xFFFF 0xFF (List.replicate 65535 0xFF) 0xFFFF) = true ∧ Instr.wf (.fpPush 0xFF) = true := by
  refine ⟨?_, rfl⟩
  rw [Instr.wf, List.length_replicate]; decide
theorem witness_EncodeOfDecodeIsBytes :
    decode [0xFF, 0x07, 0x55] = .ok (.reserved7 0xFF, [0x55]) ∧
    decode [0x55, 0x66, 0x00, 0x00, 0x00, 0x00, 0x00, 0x00, 0x00, 0x00, 0xAA] = .ok (.frame 0x00 0 0x00 [] 0x0000, [0xAA]) := by decide
theorem witness_EveryCommandWordMatchesOneRow :
    (0x0FF : CommandWord) &&& 0x700 = 0x000 ∧ (0x1FF : CommandWord) &&& 0x700 = 0x100 ∧ (0x2FF : CommandWord) &&& 0x700 = 0x200 ∧
    (0x3FF : CommandWord) &&& 0x700 = 0x300 ∧ (0x4FF : CommandWord) &&& 0x700 = 0x400 ∧ (0x5FF : CommandWord) &&& 0x700 = 0x500 ∧
    (0x6FF : CommandWord) &&& 0x700 = 0x600 ∧ (0x7FF : CommandWord) &&& 0x700 = 0x700 := by decide
theorem witness_payload_fits_and_not :
    (List.replicate 65535 (0x00 : Byte)).length ≤ 65535 ∧ 65535 < (List.replicate 65536 (0x00 : Byte)).length := by
  rw [List.length_replicate, List.length_replicate]; decide
theorem witness_StepRunsDecodedInstruction :
    (presented [.command 0x7FF, .reset]).port = .command 0x7FF :: [.reset] ∧
    (presented [.stream [0x55, 0x66, 0x01, 0x00, 0x00, 0x01, 0x00, 0x01, 0x54, 0xF3]]).port =
      .stream [0x55, 0x66, 0x01, 0x00, 0x00, 0x01, 0x00, 0x01, 0x54, 0xF3] :: [] ∧
    decode [0x55, 0x66, 0x01, 0x00, 0x00, 0x01, 0x00, 0x01, 0x54, 0xF3] = .ok (.frame 0x01 1 0x01 [] 0xF354, []) ∧
    encodeCommand (.frame 0x01 1 0x01 [] 0xF354) = none := by decide
theorem witness_PlacedWordRunsNext : decodeTableWord 16 0x655 = some (.fpPush 0x55) := by decide
theorem witness_StreamInputIsPushed : (presented [.stream [], .reset]).port = .stream [] :: [.reset] := rfl
theorem witness_EmptyPortIdles : State.reset.port = [] := rfl
theorem witness_ResetInputGivesResetValues : (presented [.reset]).port = .reset :: [] := rfl
theorem witness_CommandsRunInOrder :
    (presented [.command 0x100, .command 0x3A5, .reset]).port = [(0x100 : CommandWord), 0x3A5].map .command ++ [.reset] := rfl
theorem witness_CrcBitShiftsAndFeedsBack :
    ((0x8000 : Half).getLsbD 15 ^^ false) = true ∧ ((0x8000 : Half).getLsbD 15 ^^ true) = false ∧ 14 < 15 := by decide
theorem witness_CrcIsLinear : ([0x01, 0x02] : List Byte).length = ([0xFF, 0x00] : List Byte).length := rfl
theorem witness_SingleBitFlipIsAlwaysDetected : (0 < 8) ∧ (7 < 8) ∧ ((0x38 : Byte) ^^^ ((1 : Byte) <<< 0)) = 0x39 := by decide
theorem witness_CrcUpdFoldsOneByte :
    State.reset.crc = 0x0000 ∧ { State.reset with crc := (0x2672 : Half) }.crc = 0x2672 := ⟨rfl, rfl⟩
theorem witness_ReservedOpcodeRaisesIllegalCommand :
    ((0x3A5 : CommandWord) &&& 0x700 = 0x300) ∧ ((0x400 : CommandWord) &&& 0x700 = 0x400) ∧ ((0x7FF : CommandWord) &&& 0x700 = 0x700) ∧
    ∃ t, exec (.fpClr 0) (held [0x55]) = .next t := ⟨by decide, by decide, by decide, _, rfl⟩
theorem witness_IllIsSticky :
    (∃ t, exec (.reserved4 0) State.reset = .next t ∧ t.ill = true) ∧
    (∃ s t, step s = .next t ∧ s.ill = true ∧ t.ill = false ∧ s.port = .reset :: []) :=
  ⟨⟨_, rfl, rfl⟩, { presented [.reset] with ill := true }, _, rfl, rfl, rfl, rfl⟩
/-- One instruction for each group of the frame: one that is neither of the CRC unit nor of the parser, one of each unit. -/
theorem witness_InstructionsWriteOnlyTheirOwnState :
    (∃ t, exec (.nop 0) (held [0x55]) = .next t) ∧ (∃ t, exec (.crcUpd 0x31) (held [0x55]) = .next t) ∧
    (∃ t, exec (.frame 0x01 1 0x01 [] 0xF354) (held [0x55]) = .next t) ∧ (∀ d d', Instr.nop d ≠ .crcClr d') := by
  refine ⟨⟨_, rfl⟩, ⟨_, rfl⟩, ⟨_, rfl⟩, by simp⟩
theorem witness_UnitsAreIndependent :
    (∃ t, exec (.fpClr 0) (held [0x55]) = .next t) ∧ (∃ t, exec (.fpPush 0x66) (held [0x55]) = .next t) ∧
    (∃ t, exec (.frame 0x01 1 0x01 [] 0xF354) (held [0x55]) = .next t) ∧ (∃ t, exec (.crcClr 0) (held [0x55]) = .next t) ∧
    (∃ t, exec (.crcUpd 0xFF) (held [0x55]) = .next t) :=
  ⟨⟨_, rfl⟩, ⟨_, rfl⟩, ⟨_, rfl⟩, ⟨_, rfl⟩, ⟨_, rfl⟩⟩
theorem witness_BufferOnlyAppendsAndDrops :
    (∃ t, exec (.fpPush 0x66) (held [0x55]) = .next t) ∧ ∃ t, exec (.frame 0x01 1 0x01 [] 0xF354) (held [0x55]) = .next t :=
  ⟨⟨_, rfl⟩, ⟨_, rfl⟩⟩
theorem witness_AlignKeepsLongestMarkerSuffix :
    markerPrefix [0x55] = true ∧ markerPrefix [0x55, 0x66] = true ∧ ([0x55, 0x66] : List Byte) <:+ [0xAA, 0x55, 0x66] := by decide
/-- The four clauses of the loop: a header cut, a length over the parameter, a frame cut by one byte, and whole frames with a right
and a wrong trailer. -/
theorem witness_ScanFollowsTheLoop :
    (align [0x55, 0x66, 0x01, 0x00, 0x00, 0x01, 0x00]).length < 8 ∧
    (align [0xAA, 0x55, 0x66, 0x01, 0x11, 0x00, 0x01, 0x00, 0x01] = [0x55, 0x66, 0x01, 0x11, 0x00, 0x01, 0x00, 0x01] ∧
      16 < (0x11 : Byte).toNat + 256 * (0x00 : Byte).toNat) ∧
    (align [0x55, 0x66, 0x01, 0x00, 0x00, 0x01, 0x00, 0x01, 0x54] = [0x55, 0x66, 0x01, 0x00, 0x00, 0x01, 0x00, 0x01, 0x54] ∧
      (0x00 : Byte).toNat + 256 * (0x00 : Byte).toNat ≤ 0 ∧
      (align [0x55, 0x66, 0x01, 0x00, 0x00, 0x01, 0x00, 0x01, 0x54]).length < 10 + ((0x00 : Byte).toNat + 256 * (0x00 : Byte).toNat)) ∧
    (align [0x55, 0x66, 0x01, 0x00, 0x00, 0x01, 0x00, 0x01, 0x54, 0xF3] = [0x55, 0x66, 0x01, 0x00, 0x00, 0x01, 0x00, 0x01, 0x54, 0xF3] ∧
      (crc16 [0x55, 0x66, 0x01, 0x00, 0x00, 0x01, 0x00, 0x01]).extractLsb' 0 8 = 0x54 ∧
      (crc16 [0x55, 0x66, 0x01, 0x00, 0x00, 0x01, 0x00, 0x01]).extractLsb' 8 8 = 0xF3 ∧ (0xF2 : Byte) ≠ 0xF3) := by decide +kernel
theorem witness_FpClrEmptiesBuffer : (0x5AB : CommandWord) &&& 0x700 = 0x500 ∧ ∃ t, exec (.fpClr 0xAB) (held [0x55]) = .next t :=
  ⟨by decide, _, rfl⟩
theorem witness_FpPushScansBuffer :
    (held [0x55, 0x66, 0x01, 0x00, 0x00, 0x01, 0x00, 0x01, 0x54]).buf = [0x55, 0x66, 0x01, 0x00, 0x00, 0x01, 0x00, 0x01, 0x54] := rfl
theorem witness_OverlongHeaderGivesLengthError :
    (heldMax 16 [0x55, 0x66, 0x01, 0x11, 0x00, 0x01, 0x00]).normal = true ∧
    (heldMax 16 [0x55, 0x66, 0x01, 0x11, 0x00, 0x01, 0x00]).buf.length = 7 ∧
    readHeader ([0x55, 0x66, 0x01, 0x11, 0x00, 0x01, 0x00] ++ [0x01]) =
      some { control := 0x01, dataLength := 17, sequence := 1, commandId := 0x01 } ∧
    (heldMax 16 []).cfg.payloadMax.val < (17 : Half).toNat ∧ State.reset.cfg = Config.default ∧
    readHeader (align [0xAA, 0x55, 0x66, 0x01, 0x11, 0x00, 0x01, 0x00, 0x01]) =
      some { control := 0x01, dataLength := 17, sequence := 1, commandId := 0x01 } := by decide
/-- The rows of the phase machine: normal states in each phase, at the ends of its range. -/
theorem witness_PhaseMachineRows :
    ((held []).normal = true ∧ (held []).phase = .hunt) ∧
    ((held [0x55]).normal = true ∧ (held [0x55]).phase = .mark1) ∧
    ((held [0x55, 0x66]).normal = true ∧ (held [0x55, 0x66]).phase = .header ∧ (held [0x55, 0x66]).blen + 1 < 8) ∧
    ((heldMax 17 [0x55, 0x66, 0x01, 0x11, 0x00, 0x01, 0x00]).normal = true ∧
      (heldMax 17 [0x55, 0x66, 0x01, 0x11, 0x00, 0x01, 0x00]).phase = .header ∧
      readHeader ([0x55, 0x66, 0x01, 0x11, 0x00, 0x01, 0x00] ++ [0x01]) =
        some { control := 0x01, dataLength := 17, sequence := 1, commandId := 0x01 } ∧ (17 : Half).toNat ≤ 17) ∧
    ((heldMax 16 [0x55, 0x66, 0x01, 0x11, 0x00, 0x01, 0x00]).normal = true ∧
      (heldMax 16 [0x55, 0x66, 0x01, 0x11, 0x00, 0x01, 0x00]).phase = .header ∧ 16 < (17 : Half).toNat) := by decide
theorem witness_PhaseMachineRows_body :
    ((held [0x55, 0x66, 0x01, 0x00, 0x00, 0x01, 0x00, 0x01]).normal = true ∧
      (held [0x55, 0x66, 0x01, 0x00, 0x00, 0x01, 0x00, 0x01]).phase = .body ∧
      (held [0x55, 0x66, 0x01, 0x00, 0x00, 0x01, 0x00, 0x01]).blen + 1 < 10 + (0 : Half).toNat) ∧
    ((held [0x55, 0x66, 0x01, 0x00, 0x00, 0x01, 0x00, 0x01, 0x54]).normal = true ∧
      (held [0x55, 0x66, 0x01, 0x00, 0x00, 0x01, 0x00, 0x01, 0x54]).phase = .body ∧
      readHeader [0x55, 0x66, 0x01, 0x00, 0x00, 0x01, 0x00, 0x01, 0x54] =
        some { control := 0x01, dataLength := 0, sequence := 1, commandId := 0x01 } ∧
      (held [0x55, 0x66, 0x01, 0x00, 0x00, 0x01, 0x00, 0x01, 0x54]).blen + 1 = 10 + (0 : Half).toNat ∧
      crcVerify [0x55, 0x66, 0x01, 0x00, 0x00, 0x01, 0x00, 0x01] 0x54 0xF3 = true ∧
      crcVerify [0x55, 0x66, 0x01, 0x00, 0x00, 0x01, 0x00, 0x01] 0x54 0xF2 = false) := by decide +kernel
theorem witness_normal_states :
    State.reset.normal = true ∧ (heldMax 0 [0x55, 0x66, 0x01, 0x00, 0x00, 0x01, 0x00, 0x01, 0x54]).normal = true ∧
    (held [0x66]).normal = false ∧ ∃ t, step State.reset = .next t := ⟨by decide, by decide, by decide, _, rfl⟩
theorem witness_PushEventBounds :
    (held [0x55, 0x66, 0x01, 0x00, 0x00, 0x01, 0x00, 0x01, 0x54]).normal = true ∧
    (scan 65535 ([0x55, 0x66, 0x01, 0x00, 0x00, 0x01, 0x00, 0x01, 0x54] ++ [0xF3])).2 = .frame 0x01 0x01 1 [] :: [] := by decide +kernel
theorem witness_FrameRoundTrip :
    (held []).buf = [] ∧ (held [0x55]).buf = [0x55] ∧ (List.replicate 65535 (0x55 : Byte)).length ≤ (held []).cfg.payloadMax.val ∧
    ([] : List Byte).length ≤ (heldMax 0 []).cfg.payloadMax.val ∧ 0 < (frameBytes 0x01 1 0x01 [] 0xF354).length ∧
    9 < (frameBytes 0x01 1 0x01 [] 0xF354).length := by
  refine ⟨rfl, rfl, ?_, by decide, by decide, by decide⟩
  rw [List.length_replicate]; decide
theorem witness_WrongTrailerGivesChecksumError :
    (held []).buf = [] ∧ ([] : List Byte).length ≤ (held []).cfg.payloadMax.val ∧ (0x54F3 : Half) ≠ crc16 (frameBody 0x01 1 0x01 []) := by
  decide +kernel
theorem witness_DecodeBufferFollowsDocument_no_marker :
    ∀ i : Nat, ¬ (([0x66, 0x55] : List Byte)[i]? = some 0x55 ∧ ([0x66, 0x55] : List Byte)[i + 1]? = some 0x66) := by
  rintro (_ | _ | i) <;> simp
theorem witness_DecodeBufferFollowsDocument :
    (∀ i : Nat, i < ([0xAA, 0x55] : List Byte).length →
      ¬ ((([0xAA, 0x55] : List Byte) ++ 0x55 :: 0x66 :: [0x01, 0x00, 0x00, 0x01, 0x00, 0x01, 0x54, 0xF3])[i]? = some 0x55 ∧
        (([0xAA, 0x55] : List Byte) ++ 0x55 :: 0x66 :: [0x01, 0x00, 0x00, 0x01, 0x00, 0x01, 0x54, 0xF3])[i + 1]? = some 0x66)) ∧
    ([0x01, 0x00, 0x00, 0x01, 0x00] : List Byte).length < 6 ∧
    ([0x54] : List Byte).length < (0x00 : Byte).toNat + 256 * (0x00 : Byte).toNat + 2 ∧
    ([0x54, 0xF3] : List Byte)[(0x00 : Byte).toNat + 256 * (0x00 : Byte).toNat]? = some 0x54 ∧
    ([0x54, 0xF3] : List Byte)[(0x00 : Byte).toNat + 256 * (0x00 : Byte).toNat + 1]? = some 0xF3 ∧
    crcVerify (0x55 :: 0x66 :: 0x01 :: 0x00 :: 0x00 :: 0x01 :: 0x00 :: 0x01 :: ([0x54, 0xF3] : List Byte).take 0) 0x54 0xF3 = true ∧
    crcVerify (0x55 :: 0x66 :: 0x01 :: 0x00 :: 0x00 :: 0x01 :: 0x00 :: 0x01 :: ([0x54, 0xF3] : List Byte).take 0) 0x54 0xF2 = false := by
  decide +kernel
/-- The ends of the ranges of the status statements: 0, 1, 2, 7 and 8 bytes held. -/
theorem witness_status_ranges :
    (held []).blen = 0 ∧ (held [0x55]).blen = 1 ∧ (held [0x55, 0x66]).blen = 2 ∧ (held [0x55, 0x66]).phase = .header ∧
    (held [0x55, 0x66, 0x01, 0x00, 0x00, 0x01, 0x00]).blen = 7 ∧
    (held [0x55, 0x66, 0x01, 0x00, 0x00, 0x01, 0x00, 0x01]).blen = 8 ∧
    (held [0x55, 0x66, 0x01, 0x00, 0x00, 0x01, 0x00, 0x01]).normal = true ∧
    (held [0x55, 0x66, 0x01, 0x00, 0x00, 0x01, 0x00, 0x01]).phase = .body := by decide

end Sys2Proof.Tests
end

section
/-! SUPPORT. The family 10_state.md: the fault bit `ILL` (R14), the header views (R15), `PHASE` and `RESULT` (R18, R19) and the
CRC outputs (R20). -/

namespace Sys2Proof.Machine

/-! ### What a step can do -/

/-- What `step` can do when it goes on: idle, reset, carry out an instruction, or push bytes that are no frame. -/
theorem step_next_cases {s t : State} (h : step s = .next t) :
    (s.port = [] ∧ t = { s with out := [] }) ∨
    (∃ rest, s.port = .reset :: rest ∧ t = resetBlock { s with port := rest, out := [] }) ∨
    (∃ x rest i, s.port = x :: rest ∧ readInput x = .instr i ∧ exec i { s with port := rest, out := [] } = .next t) ∨
    (∃ x rest bs, s.port = x :: rest ∧ readInput x = .bytes bs ∧ t = pushBytes bs { s with port := rest, out := [] }) := by
  cases hp : s.port with
  | nil =>
    rw [step_nothing hp] at h
    cases h
    exact .inl ⟨rfl, by rw [← hp]⟩
  | cons x rest =>
    cases x with
    | reset =>
      rw [step_reset hp] at h
      cases h
      exact .inr (.inl ⟨rest, rfl, rfl⟩)
    | command w =>
      rw [step_command hp] at h
      exact .inr (.inr (.inl ⟨_, rest, _, rfl, rfl, h⟩))
    | stream bs =>
      cases hd : decodeStream bs with
      | some i =>
        rw [step_frame hp hd] at h
        exact .inr (.inr (.inl ⟨_, rest, i, rfl, by simp [readInput, hd], h⟩))
      | none =>
        rw [step_bytes hp hd] at h
        cases h
        exact .inr (.inr (.inr ⟨_, rest, bs, rfl, by simp [readInput, hd], rfl⟩))

/-! ### The fault bit (R14) -/

/-- Only the reserved opcodes set `ILL`, and no instruction clears it. -/
theorem exec_ill_iff {i : Instr} {s t : State} (h : exec i s = .next t) :
    t.ill = true ↔ s.ill = true ∨ (∃ d, i = .reserved3 d) ∨ (∃ d, i = .reserved4 d) ∨ ∃ d, i = .reserved7 d := by
  obtain ⟨d, rfl, rfl⟩ | ⟨d, rfl, rfl⟩ | ⟨d, rfl, rfl⟩ | ⟨d, rfl, rfl⟩ | ⟨d, rfl, rfl⟩ | ⟨d, rfl, rfl⟩ | ⟨d, rfl, rfl⟩ |
    ⟨d, rfl, rfl⟩ | ⟨c, q, k, p, x, rfl, -, rfl⟩ := exec_next_cases h <;> simp

/-- Pushing bytes does not look at `ILL`. -/
theorem pushBytes_withIll (bs : List Byte) (s : State) (b : Bool) :
    pushBytes bs { s with ill := b } = { pushBytes bs s with ill := b } := by
  induction bs generalizing s with
  | nil => rfl
  | cons a bs ih => exact ih (pushByte a s)

/-- An instruction does the same for every value of `ILL`, `ILL` itself apart. -/
theorem exec_withIll {i : Instr} {s t : State} (h : exec i s = .next t) (b : Bool) :
    ∃ c, exec i { s with ill := b } = .next { t with ill := c } := by
  cases i with
  | frame c q k p x =>
    obtain ⟨hp, rfl⟩ := exec_frame_next_iff.1 h
    exact ⟨b, exec_frame_next_iff.2 ⟨hp, (pushBytes_withIll _ s b).symm⟩⟩
  | reserved3 d | reserved4 d | reserved7 d =>
    cases h
    exact ⟨true, rfl⟩
  | nop d | crcClr d | crcUpd d | fpClr d | fpPush d =>
    cases h
    exact ⟨b, rfl⟩

/-- A step after which `ILL` is no longer set has taken the reset input. -/
theorem reset_of_step_clears_ill {s t : State} (h : step s = .next t) (hs : s.ill = true) (ht : t.ill = false) :
    ∃ rest, s.port = .reset :: rest := by
  obtain ⟨-, rfl⟩ | ⟨rest, hp, -⟩ | ⟨x, rest, i, -, -, he⟩ | ⟨x, rest, bs, -, -, rfl⟩ := step_next_cases h
  · simp [hs] at ht
  · exact ⟨rest, hp⟩
  · simp [(exec_ill_iff he).2 (.inl hs)] at ht
  · simp [hs] at ht

/-- Settles O30: `exec_ill_iff` says who sets the bit, `step_next_cases` leaves the reset input alone to clear it, and
`exec_withIll` says that nothing else depends on it. -/
theorem illIsSticky : Obligations.IllIsSticky := by
  refine ⟨fun i s t => exec_ill_iff, fun s t => reset_of_step_clears_ill, ?_, ?_, rfl⟩
  · intro s t rest h hp
    rw [step_reset hp] at h
    cases h
    rfl
  · intro i s t b h
    obtain ⟨c, hc⟩ := exec_withIll h b
    exact ⟨_, hc, rfl⟩

/-! ### The header views (R15) -/

/-- Eight bytes are enough for a header. -/
theorem readHeader_of_eight_le {B : List Byte} (h : 8 ≤ B.length) : ∃ hd, readHeader B = some hd :=
  Option.ne_none_iff_exists'.1 fun hn => by
    have := (readHeader_eq_none_iff B).1 hn
    omega

/-- Settles O52: below 8 bytes there is no header to read, and from 8 bytes on its fields are the bytes at their offsets. -/
theorem headerViewsNeedEightBytes : Obligations.HeaderViewsNeedEightBytes := by
  refine ⟨fun s hs => ?_, fun s hs => ?_⟩
  · have hn : readHeader s.buf = none := (readHeader_eq_none_iff _).2 hs
    simp [State.hCtrl, State.hLen, State.hSeq, State.hCmd, hn]
  · obtain ⟨hd, hh⟩ := readHeader_of_eight_le hs
    obtain ⟨m0, m1, l, lh, q, qh, body, hb, hlen, hseq⟩ := readHeader_eq_some hh
    refine ⟨hd.control, l, lh, q, qh, hd.commandId, ?_⟩
    simp only [State.hCtrl, State.hLen, State.hSeq, State.hCmd, hh, Option.map_some, hlen, hseq, le16, and_true]
    simp [hb]

/-! ### `PHASE` and `RESULT` (R18, R19) -/

theorem phaseOf_eq_hunt_iff (B : List Byte) : phaseOf B = .hunt ↔ B.length = 0 := by
  unfold phaseOf; split_ifs <;> simp only [true_iff, false_iff] <;> omega

theorem phaseOf_eq_mark1_iff (B : List Byte) : phaseOf B = .mark1 ↔ B.length = 1 := by
  unfold phaseOf; split_ifs <;> simp only [true_iff, false_iff] <;> omega

theorem phaseOf_eq_header_iff (B : List Byte) : phaseOf B = .header ↔ 2 ≤ B.length ∧ B.length < 8 := by
  unfold phaseOf; split_ifs <;> simp only [true_iff, false_iff] <;> omega

theorem phaseOf_eq_body_iff (B : List Byte) : phaseOf B = .body ↔ 8 ≤ B.length := by
  unfold phaseOf; split_ifs <;> simp only [true_iff, false_iff] <;> omega

theorem resultOf_eq_noFrame_iff (B : List Byte) : resultOf B = .noFrame ↔ B.length < 2 := by
  unfold resultOf phaseOf; split_ifs <;> simp only [true_iff, false_iff] <;> omega

theorem resultOf_eq_incomplete_iff (B : List Byte) : resultOf B = .incomplete ↔ 2 ≤ B.length := by
  unfold resultOf phaseOf; split_ifs <;> simp only [true_iff, false_iff] <;> omega

/-- R17: a buffer in normal form is empty or starts with the marker, as far as it goes. -/
theorem normalForm_markerPrefix {P : Nat} {B : List Byte} (h : normalForm P B = true) : B = [] ∨ markerPrefix B = true := by
  have ha := align_cases B
  rwa [(normalForm_waits h).1] at ha

/-- R17 (b): one byte in normal form is the first marker byte. -/
theorem normalForm_one {P : Nat} {B : List Byte} (h : normalForm P B = true) (hl : B.length = 1) : B = [marker0] := by
  obtain ⟨b, rfl⟩ := List.length_eq_one_iff.1 hl
  simpa [markerPrefix] using normalForm_markerPrefix h

/-- R17 (c), (d): two bytes and more in normal form start with the whole marker. -/
theorem normalForm_two {P : Nat} {B : List Byte} (h : normalForm P B = true) (hl : 2 ≤ B.length) :
    ∃ rest, B = marker0 :: marker1 :: rest := by
  obtain rfl | hm := normalForm_markerPrefix h
  · simp at hl
  · exact markerPrefix_two hm hl

/-- Settles O54: the phase and the result by length, and the normal form by its marker. -/
theorem phaseAndResultByLength : Obligations.PhaseAndResultByLength := by
  refine ⟨fun s => ⟨fun h => ?_, fun h => ?_, fun h h' => ?_, fun h => ?_⟩, fun s hs => ⟨fun hp => ?_, fun hp => ?_, fun hp => ?_⟩⟩
  · have hp : s.phase = .hunt := (phaseOf_eq_hunt_iff _).2 h
    have hr : s.result = .noFrame := (resultOf_eq_noFrame_iff _).2 (show s.blen < 2 by omega)
    exact ⟨hp, congrArg Phase.code hp, hr, congrArg Result.code hr⟩
  · have hp : s.phase = .mark1 := (phaseOf_eq_mark1_iff _).2 h
    have hr : s.result = .noFrame := (resultOf_eq_noFrame_iff _).2 (show s.blen < 2 by omega)
    exact ⟨hp, congrArg Phase.code hp, hr, congrArg Result.code hr⟩
  · have hp : s.phase = .header := (phaseOf_eq_header_iff _).2 ⟨h, h'⟩
    have hr : s.result = .incomplete := (resultOf_eq_incomplete_iff _).2 h
    exact ⟨hp, congrArg Phase.code hp, hr, congrArg Result.code hr⟩
  · have hp : s.phase = .body := (phaseOf_eq_body_iff _).2 h
    have hr : s.result = .incomplete := (resultOf_eq_incomplete_iff _).2 (show 2 ≤ s.blen by omega)
    exact ⟨hp, congrArg Phase.code hp, hr, congrArg Result.code hr⟩
  · exact List.length_eq_zero_iff.1 ((phaseOf_eq_hunt_iff _).1 hp)
  · exact normalForm_one hs ((phaseOf_eq_mark1_iff _).1 hp)
  · apply normalForm_two hs
    obtain hp | hp := hp
    · exact ((phaseOf_eq_header_iff _).1 hp).1
    · have := (phaseOf_eq_body_iff _).1 hp
      omega

/-! ### The CRC outputs (R20) -/

/-- Settles O55: the outputs and the trailer are the bytes by definition, and the accumulator is put together from them again
(`le16_lo8_hi8`). -/
theorem crcOutputsAreTheAccumulator : Obligations.CrcOutputsAreTheAccumulator :=
  fun s => ⟨rfl, rfl, rfl, rfl, (le16_lo8_hi8 s.crc).symm⟩

end Sys2Proof.Machine
end

section
/-! SUPPORT. The family 30_encoding.md: the rows of the opcode map (R56). -/

namespace Sys2Proof

/-! ### The row of a command word -/

/-- The match value of a word is the opcode of its row, with the data byte cleared. -/
theorem and_mask_eq_commandWord (w : CommandWord) : w &&& 0x700 = commandWord (opField w) 0 := by
  conv_lhs => rw [← commandWord_fields w]
  exact commandWord_and_mask _ _

/-- A match value tells the opcode. -/
theorem opField_of_and_mask {w : CommandWord} {o : BitVec 3} (h : w &&& 0x700 = commandWord o 0) : opField w = o := by
  rw [and_mask_eq_commandWord] at h
  simpa using congrArg opField h

/-- A word with the match value of an opcode decodes as that opcode with the word's own data byte. -/
theorem decodeCommand_of_and_mask {w : CommandWord} {o : BitVec 3} (h : w &&& 0x700 = commandWord o 0) :
    decodeCommand w = decodeCommand (commandWord o (dataField w)) := by
  rw [← opField_of_and_mask h, commandWord_fields]

/-- Each opcode's match value stands in the opcode map exactly once. -/
theorem length_filter_opcodeMatches (o : BitVec 3) : (opcodeMatches.filter fun m => commandWord o 0 == m).length = 1 := by
  rcases opcode_cases o with rfl | rfl | rfl | rfl | rfl | rfl | rfl | rfl <;> rfl

/-- Settles O3: a word under the mask is its opcode (`and_mask_eq_commandWord`), which stands in the map once, and a row's match
value fixes the opcode that is decoded (`decodeCommand_of_and_mask`). -/
theorem everyCommandWordMatchesOneRow : Obligations.EveryCommandWordMatchesOneRow := by
  intro w
  have row (o : BitVec 3) (h : w &&& 0x700 = commandWord o 0) :=
    (decodeCommand_of_and_mask h).trans (decodeCommand_commandWord o _)
  refine ⟨?_, encodeCommand_decodeCommand w, row 0, row 1, row 2, row 3, row 4, row 5, row 6, row 7⟩
  rw [and_mask_eq_commandWord]
  exact length_filter_opcodeMatches _

end Sys2Proof
end

section
/-! SUPPORT. The family 40_crc_unit.md: one bit and the fold over a message (R71, R73, R121), `CRC.CLR` and `CRC.UPD` (R78, R79). -/

namespace Sys2Proof.Machine

/-! ### One bit (R71) -/

/-- A bit step with feedback. -/
theorem crcBit_of_feedback {c : Half} {x : Bool} (h : (c.getLsbD 15 ^^ x) = true) : crcBit c x = (c <<< 1) ^^^ crcPoly :=
  if_pos h

/-- A bit step without feedback. -/
theorem crcBit_of_no_feedback {c : Half} {x : Bool} (h : (c.getLsbD 15 ^^ x) = false) : crcBit c x = c <<< 1 :=
  if_neg (Bool.eq_false_iff.1 h)

/-- Settles O17: the two branches of the bit step, and the shift bit by bit. -/
theorem crcBitShiftsAndFeedsBack : Obligations.CrcBitShiftsAndFeedsBack := by
  refine fun c x => ⟨crcBit_of_feedback, crcBit_of_no_feedback, ?_, fun i hi => ?_⟩
  · simp
  · have hi16 : i + 1 < 16 := by omega
    rw [BitVec.getLsbD_shiftLeft]
    simp [hi16]

/-! ### The fold over a message (R73, R121) -/

/-- `k n`, where evaluation has to know `n` before it goes on to `k`. -/
def evalFirst (n : Nat) (k : Nat → Half) : Half :=
  match n with
  | 0 => k 0
  | m + 1 => k (m + 1)

theorem evalFirst_eq (n : Nat) (k : Nat → Half) : evalFirst n k = k n := by
  cases n <;> rfl

/-- The CRC of `n` equal bytes, each register value computed before the next byte is folded in: the fold leaves them all to the
end, and the kernel's recursion is then as deep as the message is long. -/
def crcRepeat (b : Byte) : Nat → Half → Half
  | 0, c => c
  | n + 1, c => evalFirst (crcByte c b).toNat fun v => crcRepeat b n (BitVec.ofNat 16 v)

theorem crcRepeat_eq_crc16From (b : Byte) (n : Nat) (c : Half) : crcRepeat b n c = crc16From c (List.replicate n b) := by
  induction n generalizing c with
  | zero => rfl
  | succ n ih => rw [crcRepeat, evalFirst_eq, BitVec.ofNat_toNat, BitVec.setWidth_eq, ih, List.replicate_succ, crc16From_cons]

/-- R121: the check value, the CRC of `123456789`. -/
theorem crc16_check : crc16 [0x31, 0x32, 0x33, 0x34, 0x35, 0x36, 0x37, 0x38, 0x39] = 0x31C3 := by decide +kernel

/-- R121: the CRC of 4096 times `A`. -/
theorem crc16_replicate_4096 : crc16 (List.replicate 4096 0x41) = 0xD694 :=
  have hv : crcRepeat 0x41 4096 crcInit = 0xD694 := by decide +kernel
  (crcRepeat_eq_crc16From _ _ _).symm.trans hv

/-- Settles O18: the equations of the fold, and the three vectors. -/
theorem crcOfMessages : Obligations.CrcOfMessages :=
  ⟨fun _ => rfl, crc16From_nil, crc16From_cons, crc16From_append, crc16From_nil _, crc16_check, crc16_replicate_4096⟩

/-! ### The unit's two operations (R78, R79) -/

/-- `CRC.CLR` completes in every state and writes `CRC` alone. -/
theorem exec_crcClr (d : Byte) (s : State) : exec (.crcClr d) s = .next { s with crc := 0x0000 } := rfl

/-- `CRC.UPD` completes in every state and writes `CRC` alone. -/
theorem exec_crcUpd (d : Byte) (s : State) : exec (.crcUpd d) s = .next { s with crc := crcByte s.crc d } := rfl

/-- A list of instructions goes on from where its first one went. -/
theorem execAll_cons_of_next {i : Instr} {s t : State} (h : exec i s = .next t) (is : List Instr) :
    execAll (i :: is) s = execAll is t := by
  rw [execAll, h]

/-- Settles O25: the row of the word is decoded (`decodeCommand_of_and_mask`), and the second clearing finds `CRC` at 0. -/
theorem crcClrClearsAccumulator : Obligations.CrcClrClearsAccumulator := by
  refine ⟨fun w h => ?_, exec_crcClr, fun s => ?_⟩
  · exact (decodeCommand_of_and_mask (o := 1) h).trans (decodeCommand_commandWord 1 _)
  · rw [execAll_cons_of_next (exec_crcClr 0 s), execAll_cons_of_next (exec_crcClr 0 _), execAll, exec_crcClr]

/-- Settles O26: the word is `{2, d}` (`commandWord_or_data`), and `exec_crcUpd` at the register values the rule names. -/
theorem crcUpdFoldsOneByte : Obligations.CrcUpdFoldsOneByte := by
  refine ⟨fun d => ?_, exec_crcUpd, fun s h => ?_, fun s h => ?_, fun s h => ?_⟩
  · exact (congrArg decodeCommand (commandWord_or_data 2 d)).trans (decodeCommand_commandWord 2 d)
  · have hz : crcByte s.crc 0x00 = s.crc := by rw [h]; exact crcByte_zero_zero
    rw [exec_crcUpd, hz]
  · have hv : crcByte 0x0000 0x31 = 0x2672 := by decide
    rw [exec_crcUpd, h, hv]
  · have hv : crcByte 0x2672 0x32 = 0x20B5 := by decide
    rw [exec_crcUpd, h, hv]

end Sys2Proof.Machine
end

section
/-! SUPPORT. The family 41_frame_parser.md: `align` (R88, R89), one pass of the loop (R92, R96), `FP.CLR` and `FP.PUSH` (R86, R87). -/

namespace Sys2Proof.Machine

/-! ### `align` (R88, R89) -/

/-- R88: a marker prefix is a lone first marker byte or starts with the whole marker. -/
theorem markerPrefix_iff (B : List Byte) :
    markerPrefix B = true ↔ B = [marker0] ∨ ∃ rest, B = marker0 :: marker1 :: rest := by
  rcases B with _ | ⟨b0, _ | ⟨b1, rest⟩⟩ <;> simp [markerPrefix]

/-- R89: no longer suffix than the one `align` keeps is empty or a marker prefix. -/
theorem suffix_align {B C : List Byte} (hC : C <:+ B) (h : C = [] ∨ markerPrefix C = true) : C <:+ align B := by
  induction B with
  | nil => exact hC
  | cons b bs ih =>
    rw [align]
    split
    · exact hC
    · rename_i hb
      obtain rfl | hC := List.suffix_cons_iff.1 hC
      · exact absurd (h.resolve_left (List.cons_ne_nil b bs)) hb
      · exact ih hC

/-- Settles O34: `markerPrefix_iff` reads off the marker, `suffix_align` is the maximality, and `scan_align` says that the bytes
dropped leave no trace. -/
theorem alignKeepsLongestMarkerSuffix : Obligations.AlignKeepsLongestMarkerSuffix := by
  refine ⟨rfl, rfl, fun bs => (markerPrefix_iff _).2 (.inr ⟨bs, rfl⟩), fun b h => ?_, fun b0 b1 bs h => ?_, fun B => ?_⟩
  · show b = marker0
    simpa using (markerPrefix_iff _).1 h
  · obtain ⟨rest, hr⟩ := markerPrefix_two h (by simp)
    cases hr
    exact ⟨rfl, rfl⟩
  · exact ⟨align_suffix B, align_cases B, fun C => suffix_align, fun P => (scan_align P B).symm⟩

/-! ### One pass, case by case (R92) -/

section Pass

variable {P : Nat} {B : List Byte} {hd : Header} (hh : readHeader B = some hd)
include hh

/-- R96: the length does not fit. -/
theorem judge_of_overlong (hP : P < hd.dataLength.toNat) : judge P B = .found .lengthError 1 := by
  simp only [judge, hh, if_pos hP]

/-- R94: a whole frame with its right trailer. -/
theorem judge_of_checksumOk (hP : hd.dataLength.toNat ≤ P) (hl : frameLength hd ≤ B.length)
    (hc : checksumOk B hd.dataLength.toNat = true) : judge P B = .found (frameEvent hd B) (frameLength hd) := by
  simp only [judge, hh, if_neg (Nat.not_lt.2 hP), if_neg (Nat.not_lt.2 hl), if_pos hc]

/-- R95: a whole frame with another trailer. -/
theorem judge_of_not_checksumOk (hP : hd.dataLength.toNat ≤ P) (hl : frameLength hd ≤ B.length)
    (hc : ¬ checksumOk B hd.dataLength.toNat = true) : judge P B = .found .checksumError 1 := by
  simp only [judge, hh, if_neg (Nat.not_lt.2 hP), if_neg (Nat.not_lt.2 hl), if_neg hc]

end Pass

/-- R91, with the trailer read off the bytes after the header. -/
theorem checksumOk_iff (B : List Byte) (n : Nat) :
    checksumOk B n = true ↔
      (B.drop 8)[n]? = some (lo8 (crc16 (B.take (8 + n)))) ∧ (B.drop 8)[n + 1]? = some (hi8 (crc16 (B.take (8 + n)))) := by
  have h9 : 8 + (n + 1) = 9 + n := by omega
  simp only [checksumOk, readByte, Bool.and_eq_true, beq_iff_eq, List.getElem?_drop, h9]

/-- Settles O35: the fields are the bytes after the marker (`readHeader`, `le16_toNat`), and each case of the loop is one verdict of
a pass. -/
theorem scanFollowsTheLoop : Obligations.ScanFollowsTheLoop := by
  intro P B
  refine ⟨fun h => scan_of_wait (judge_wait_iff.2 (.inl ((readHeader_eq_none_iff _).2 h))), ?_⟩
  intro m0 m1 c l lh q qh k body hB
  have hh : readHeader (align B) = some { control := c, dataLength := le16 l lh, sequence := le16 q qh, commandId := k } := by
    rw [hB]; rfl
  have hbody : (align B).drop 8 = body := by rw [hB]; rfl
  rw [← le16_toNat, ← hbody]
  refine ⟨fun hP => scan_of_found (judge_of_overlong hh hP),
    fun hP hl => scan_of_wait (judge_wait_iff.2 (.inr ⟨_, hh, hP, hl⟩)), fun hP hl => ⟨fun hc => ?_, fun hc => ?_⟩⟩
  · exact scan_of_found (judge_of_checksumOk hh hP hl ((checksumOk_iff _ _).2 hc))
  · exact scan_of_found (judge_of_not_checksumOk hh hP hl (mt (checksumOk_iff _ _).1 hc))

/-! ### The unit's two operations (R86, R87) -/

/-- `FP.CLR` completes in every state and writes `BUF` alone. -/
theorem exec_fpClr (d : Byte) (s : State) : exec (.fpClr d) s = .next { s with buf := [] } := rfl

/-- `FP.PUSH` completes in every state and writes `BUF` and the events alone. -/
theorem exec_fpPush (d : Byte) (s : State) :
    exec (.fpPush d) s =
      .next { s with
        buf := (scan s.cfg.payloadMax.val (s.buf ++ [d])).1,
        out := s.out ++ (scan s.cfg.payloadMax.val (s.buf ++ [d])).2 } := rfl

/-- Settles O38: the row of the word is decoded (`decodeCommand_of_and_mask`), and the status of an empty buffer is `HUNT` and
`NO_FRAME`. -/
theorem fpClrEmptiesBuffer : Obligations.FpClrEmptiesBuffer := by
  refine ⟨fun w h => ?_, exec_fpClr, fun d s t h => ?_⟩
  · exact (decodeCommand_of_and_mask (o := 5) h).trans (decodeCommand_commandWord 5 _)
  · rw [exec_fpClr] at h
    cases h
    exact ⟨rfl, (phaseOf_eq_hunt_iff []).2 rfl, (resultOf_eq_noFrame_iff []).2 (by decide)⟩

/-- R87, the example: the scan of the shortest frame delivers it and leaves nothing, whatever the parameter. -/
theorem scan_emptyPayload_frame (P : Nat) :
    scan P [0x55, 0x66, 0x01, 0x00, 0x00, 0x01, 0x00, 0x01, 0x54, 0xF3] = ([], [.frame 0x01 0x01 1 []]) := by
  have hc : checksumOk [0x55, 0x66, 0x01, 0x00, 0x00, 0x01, 0x00, 0x01, 0x54, 0xF3] 0 = true := by decide +kernel
  have hj : judge P (align [0x55, 0x66, 0x01, 0x00, 0x00, 0x01, 0x00, 0x01, 0x54, 0xF3]) = .found (.frame 0x01 0x01 1 []) 10 :=
    judge_of_checksumOk (hd := { control := 0x01, dataLength := 0, sequence := 1, commandId := 0x01 }) rfl (Nat.zero_le P)
      (by decide) hc
  rw [scan_of_found hj]
  rfl

/-- Settles O39: the word is `{6, d}` (`commandWord_or_data`), and the example is `scan_emptyPayload_frame`. -/
theorem fpPushScansBuffer : Obligations.FpPushScansBuffer := by
  refine ⟨fun d => ?_, exec_fpPush, fun s h => ?_⟩
  · exact (congrArg decodeCommand (commandWord_or_data 6 d)).trans (decodeCommand_commandWord 6 d)
  · rw [exec_fpPush, h]
    simp only [List.cons_append, List.nil_append, scan_emptyPayload_frame]

/-! ### Headers over the parameter (R96) -/

/-- R96: `scan` rejects an over-long header, wherever it meets it. -/
theorem scan_of_overlong {P : Nat} {B : List Byte} {hd : Header} (hh : readHeader (align B) = some hd)
    (hP : P < hd.dataLength.toNat) :
    scan P B = ((scan P ((align B).drop 1)).1, .lengthError :: (scan P ((align B).drop 1)).2) :=
  scan_of_found (judge_of_overlong hh hP)

/-- A buffer in normal form that holds the marker stays aligned when bytes are appended. -/
theorem align_append_of_normalForm {P : Nat} {B : List Byte} (h : normalForm P B = true) (hl : 2 ≤ B.length) (C : List Byte) :
    align (B ++ C) = B ++ C := by
  obtain ⟨rest, rfl⟩ := normalForm_two h hl
  rfl

/-- R96: no 16-bit length is over 65535, so with that parameter no scan finds a length error. -/
theorem lengthError_not_mem_scan {P : Nat} (hP : 65535 ≤ P) (B : List Byte) : Event.lengthError ∉ (scan P B).2 := by
  induction B using scan_induction (P := P) with
  | wait A h => simp [scan_of_wait h]
  | found A e k h ih =>
    have he : e ≠ .lengthError := by
      obtain ⟨hd, -, ⟨-, -, hlt⟩ | ⟨-, -, -, rfl, -⟩ | ⟨-, -, -, rfl, -⟩⟩ := judge_found h
      · have := hd.dataLength.isLt
        omega
      · exact Event.noConfusion
      · exact Event.noConfusion
    rw [scan_of_found h]
    simp [ih, he.symm]

/-- Settles O40: `scan_of_overlong`; a normal buffer of 7 bytes stays aligned, so the scan meets the header there; and the default
parameter is the largest length (`lengthError_not_mem_scan`). -/
theorem overlongHeaderGivesLengthError : Obligations.OverlongHeaderGivesLengthError := by
  refine ⟨fun P B h => scan_of_overlong, fun s d h hn hl hh hP => ?_, fun s d hs => ?_⟩
  · have ha : align (s.buf ++ [d]) = s.buf ++ [d] := align_append_of_normalForm hn (by omega) _
    have hscan := scan_of_overlong (by rwa [ha]) hP
    rw [ha] at hscan
    rw [exec_fpPush, hscan]
  · have hP : 65535 ≤ s.cfg.payloadMax.val := by rw [hs]; decide
    exact ⟨_, _, exec_fpPush d s, rfl, lengthError_not_mem_scan hP _⟩

end Sys2Proof.Machine
end

section
/-! SUPPORT. The family 42_system_ops.md: `NOP` (R110) and the reserved opcodes (R111). -/

namespace Sys2Proof.Machine

/-! ### NOP (R110) -/

/-- `NOP` completes in every state and writes nothing. -/
theorem exec_nop (d : Byte) (s : State) : exec (.nop d) s = .next s := rfl

/-- Settles O28: the row of the word is decoded (`decodeCommand_of_and_mask`), and `NOP` answers the state it was given. -/
theorem nopChangesNothing : Obligations.NopChangesNothing :=
  ⟨fun _ h => (decodeCommand_of_and_mask (o := 0) h).trans (decodeCommand_commandWord 0 _), exec_nop⟩

/-! ### The reserved opcodes (R111) -/

/-- The one fault writes `ILL` and the events alone. -/
theorem raiseIllegalCommand_eq (w : CommandWord) (s : State) :
    raiseIllegalCommand w s = { s with ill := true, out := s.out ++ [.illegalCommand w] } := rfl

/-- A word in the row of a reserved opcode takes the fault, and the fault carries that very word. -/
theorem exec_decodeCommand_of_reserved {w : CommandWord} {o : BitVec 3} (ho : o = 3 ∨ o = 4 ∨ o = 7)
    (h : w &&& 0x700 = commandWord o 0) (s : State) : exec (decodeCommand w) s = .next (raiseIllegalCommand w s) := by
  have hw : commandWord o (dataField w) = w := by rw [← opField_of_and_mask h, commandWord_fields]
  rw [← hw, decodeCommand_commandWord]
  rcases ho with rfl | rfl | rfl <;> rfl

/-- The fault with the word of an opcode and a data byte, the word as its row's match value with the byte put in. -/
theorem raiseIllegalCommand_commandWord (o : BitVec 3) (d : Byte) (s : State) :
    raiseIllegalCommand (commandWord o d) s =
      { s with ill := true, out := s.out ++ [.illegalCommand (commandWord o 0 ||| d.setWidth 11)] } := by
  rw [commandWord_or_data, raiseIllegalCommand_eq]

/-- With `ILL` set an instruction has the outcome it has without, `ILL` apart, which stays set. -/
theorem exec_withIll_true {i : Instr} {s t : State} (h : exec i s = .next t) :
    exec i { s with ill := true } = .next { t with ill := true } := by
  obtain ⟨c, hc⟩ := exec_withIll h true
  have hset : c = true := (exec_ill_iff hc).2 (.inl rfl)
  rw [hc, hset]

/-- Settles O29: a reserved row takes the fault with its word (`exec_decodeCommand_of_reserved`), the instructions by name do so
with `{op, d}`, and later instructions do not look at `ILL` (`exec_withIll_true`). -/
theorem reservedOpcodeRaisesIllegalCommand : Obligations.ReservedOpcodeRaisesIllegalCommand := by
  refine ⟨fun w s h => ?_, fun d s => ⟨?_, ?_, ?_⟩, fun i s t h => ⟨_, exec_withIll_true h, rfl, rfl⟩⟩
  · rw [← raiseIllegalCommand_eq]
    rcases h with h | h | h
    · exact exec_decodeCommand_of_reserved (o := 3) (by decide) h s
    · exact exec_decodeCommand_of_reserved (o := 4) (by decide) h s
    · exact exec_decodeCommand_of_reserved (o := 7) (by decide) h s
  · exact congrArg Host.Outcome.next (raiseIllegalCommand_commandWord 3 d s)
  · exact congrArg Host.Outcome.next (raiseIllegalCommand_commandWord 4 d s)
  · exact congrArg Host.Outcome.next (raiseIllegalCommand_commandWord 7 d s)

end Sys2Proof.Machine
end

section
/-! SUPPORT. The family 43_reference_functions.md: the layout of `frame_encode` (R115). -/

namespace Sys2Proof

/-- The little-endian value of a half's two bytes (R33) is the half. -/
theorem lo8_add_hi8_toNat (v : Half) : (lo8 v).toNat + 256 * (hi8 v).toNat = v.toNat := by
  rw [← le16_toNat, le16_lo8_hi8]

/-- The little-endian value of the length bytes is the length itself, as long as it fits `data_length`. -/
theorem lo8_add_hi8_ofNat {n : Nat} (h : n ≤ 65535) :
    (lo8 (BitVec.ofNat 16 n)).toNat + 256 * (hi8 (BitVec.ofNat 16 n)).toNat = n := by
  rw [← le16_toNat, dataLength_readback h]

section Layout
variable (c : Byte) (q : Half) (k : Byte) (p : List Byte) (x : Half)

/-- Past the eight bytes of the header stand the payload and the trailer. -/
theorem frameBytes_drop_header : (frameBytes c q k p x).drop 8 = p ++ trailerBytes x := rfl

/-- What stands before the trailer is the frame's body. -/
theorem frameBytes_take_body : (frameBytes c q k p x).take (8 + p.length) = frameBody c q k p := by
  rw [frameBytes, ← frameBody_length c q k p, List.take_left]

/-- Past the body the bytes are those of the trailer, by their place in it. -/
theorem frameBytes_getElem?_trailer (i : Nat) : (frameBytes c q k p x)[8 + p.length + i]? = (trailerBytes x)[i]? := by
  rw [frameBytes, ← frameBody_length c q k p, List.getElem?_append_right (Nat.le_add_right _ _), Nat.add_sub_cancel_left]

end Layout
end Sys2Proof

namespace Sys2Proof.Machine

/-- R115: a payload that fits `data_length` has a frame, whose checksum is the CRC of its body. -/
theorem frameEncode_of_fits (c : Byte) (q : Half) (k : Byte) {p : List Byte} (h : p.length ≤ 65535) :
    frameEncode c q k p = some (frameBytes c q k p (crc16 (frameBody c q k p))) := if_pos h

/-- Settles O5: the header's bytes are read off the list, the length and sequence bytes are put together again
(`lo8_add_hi8_toNat`), and past the header the frame is taken apart into payload and trailer (`frameBytes_drop_header`,
`frameBytes_getElem?_trailer`) with the CRC over all before the trailer (`frameBytes_take_body`). -/
theorem frameIsLaidOutByOffset : Obligations.FrameIsLaidOutByOffset := by
  intro c q k p h
  have hpayload (x : Half) : ((frameBytes c q k p x).drop 8).take p.length = p := by
    rw [frameBytes_drop_header, List.take_left]
  have htrailer1 (x : Half) : (frameBytes c q k p x)[9 + p.length]? = some (hi8 x) := by
    rw [show 9 + p.length = 8 + p.length + 1 by omega, frameBytes_getElem?_trailer]; rfl
  refine ⟨_, frameEncode_of_fits c q k h, frameBytes_length .., rfl, rfl, rfl, ⟨_, _, rfl, rfl, lo8_add_hi8_ofNat h⟩,
    ⟨_, _, rfl, rfl, lo8_add_hi8_toNat q⟩, rfl, hpayload _, _, _, frameBytes_getElem?_trailer c q k p _ 0, htrailer1 _, ?_⟩
  rw [frameBytes_take_body, lo8_add_hi8_toNat]

end Sys2Proof.Machine
end

section
/-! SUPPORT. The family 60_exceptions.md: no outcome stops the block (R149), and the codes of the outputs (R137). -/

namespace Sys2Proof.Machine

/-! ### Nothing is fatal (R149) -/

/-- The frame read from a stream always goes on, because its payload fits (the counterpart of `exec_decodeCommand`). -/
theorem exec_of_decodeStream {bs : List Byte} {i : Instr} (h : decodeStream bs = some i) (s : State) :
    ∃ t, exec i s = .next t := by
  obtain ⟨c, q, k, p, x, rfl, hfits, -⟩ := decodeStream_eq_some h
  exact ⟨_, exec_frame_next_iff.2 ⟨hfits, rfl⟩⟩

/-- Settles O13: by the next input of the port. Idling, the reset input and bytes that are no frame answer a next state outright,
a command word does by `exec_decodeCommand` and a frame by `exec_of_decodeStream`. -/
theorem noStepStops : Obligations.NoStepStops := by
  intro s
  cases hp : s.port with
  | nil => exact ⟨_, step_nothing hp⟩
  | cons x rest =>
    cases x with
    | reset => exact ⟨_, step_reset hp⟩
    | command w =>
      rw [step_command hp]
      exact exec_decodeCommand w _
    | stream bs =>
      cases hd : decodeStream bs with
      | none => exact ⟨_, step_bytes hp hd⟩
      | some i =>
        rw [step_frame hp hd]
        exact exec_of_decodeStream hd _

/-! ### The codes of the events (R137) -/

/-- The codes that events have. -/
theorem Event.code_cases (e : Event) : e.code = 1 ∨ e.code = 2 ∨ e.code = 3 ∨ e.code = 7 := by
  cases e <;> simp [Event.code]

/-- Settles O56: the table of codes is `Event.code`, `Result.code` and `Phase.code` read off by constructor, and 4, 5 and 6 are
none of the codes in `Event.code_cases`. -/
theorem eventAndStatusCodes : Obligations.EventAndStatusCodes := by
  refine ⟨fun _ _ _ _ => rfl, rfl, rfl, fun _ => rfl, fun _ => rfl, rfl, rfl, rfl, rfl, rfl, rfl, fun e => ?_⟩
  obtain h | h | h | h := e.code_cases <;> rw [h] <;> decide

end Sys2Proof.Machine
end

section
/-! SUPPORT. The family 70_reset_and_hazards.md: what the reset input leaves (R151). -/

namespace Sys2Proof.Machine

/-! ### The outputs of a cleared unit (R151) -/

/-- R20: the outputs of a cleared accumulator. -/
theorem crcOutputs_of_crc_zero {s : State} (h : s.crc = 0x0000) : s.crcQ = 0x0000 ∧ s.crcLo = 0x00 ∧ s.crcHi = 0x00 := by
  simp only [State.crcQ, State.crcLo, State.crcHi, h]
  decide

/-- R18, R19: with an empty buffer the parser hunts and holds no frame. -/
theorem parserOutputs_of_blen_zero {s : State} (h : s.blen = 0) : s.phase = .hunt ∧ s.result = .noFrame :=
  ⟨(phaseOf_eq_hunt_iff _).2 h, (resultOf_eq_noFrame_iff _).2 (h.trans_lt (by decide))⟩

/-- R16: `NEED` has no value below 8 bytes. -/
theorem need_eq_none_of_blen_lt_eight {s : State} (h : s.blen < 8) : s.need = none := by
  rw [State.need, (readHeader_eq_none_iff _).2 h, Option.map_none]

/-! ### The reset input (R151) -/

/-- `CRC.CLR`; `FP.CLR` goes on and clears both units. -/
theorem execAll_crcClr_fpClr (d d' : Byte) (s : State) :
    execAll [.crcClr d, .fpClr d'] s = .next (clearBuffer (clearCrc s)) := by
  rw [execAll_cons_of_next (exec_crcClr d s), execAll_cons_of_next (exec_fpClr d' _)]
  rfl

/-- The reset input clears both units and `ILL`, and writes nothing else. -/
theorem resetBlock_eq_clear (s : State) : resetBlock s = { clearBuffer (clearCrc s) with ill := false } := rfl

/-- Settles O14: the reset input is `resetBlock` (`step_reset`), which clears both units as the two commands do
(`execAll_crcClr_fpClr`) and `ILL` besides (`resetBlock_eq_clear`); the outputs are those of `CRC = 0` and of an empty buffer. -/
theorem resetInputGivesResetValues : Obligations.ResetInputGivesResetValues := by
  intro s rest hp
  have hblen : (resetBlock { s with port := rest, out := [] }).blen = 0 := rfl
  have hshort := hblen.trans_lt (show 0 < 8 by decide)
  obtain ⟨hq, hlo, hhi⟩ := crcOutputs_of_crc_zero (resetBlock_crc { s with port := rest, out := [] })
  obtain ⟨hphase, hresult⟩ := parserOutputs_of_blen_zero hblen
  obtain ⟨hctrl, hlen, hseq, hcmd⟩ := headerViewsNeedEightBytes.1 _ hshort
  exact ⟨_, step_reset hp, resetBlock_crc _, resetBlock_buf _, resetBlock_ill _, resetBlock_out _, hq, hlo, hhi, hblen, hphase,
    hresult, hctrl, hlen, hseq, hcmd, need_eq_none_of_blen_lt_eight hshort,
    _, execAll_crcClr_fpClr 0 0 _, resetBlock_eq_clear _⟩

end Sys2Proof.Machine
end

section
/-! SUPPORT. The two directions of the decoder and the encoder (30_encoding.md), and the lines of the assembler (R61). -/

namespace Sys2Proof

/-! ### What the decoder reads -/

/-- An instruction with a command word has that word's bytes, and the word decodes to it. -/
theorem encode_of_encodeCommand {i : Instr} {w : CommandWord} (h : encodeCommand i = some w) :
    encode i = commandBytes w ∧ decodeCommand w = i := by
  cases i with
  | frame c q k p x => cases h
  | _ d =>
    cases h
    exact ⟨rfl, decodeCommand_commandWord _ d⟩

/-- Where the marker stands, the decoder reads a frame: `0x66` is no upper half of a command word (log entry 7). -/
theorem decode_marker (bs : List Byte) : decode (marker0 :: marker1 :: bs) = decodeFrame (marker0 :: marker1 :: bs) := by
  rw [decode, if_neg (by decide), if_pos ⟨rfl, rfl⟩]

/-- Two bytes below bit 11 are the bytes of the word they make. -/
theorem commandBytes_of_upper_lt {b0 b1 : Byte} (h : b1.toNat < 8) : commandBytes (commandWord (b1.setWidth 3) b0) = [b0, b1] := by
  have hb : (b1.setWidth 3).setWidth 8 = b1 := by
    apply BitVec.eq_of_toNat_eq
    simp only [BitVec.toNat_setWidth]
    omega
  rw [commandBytes, dataField_commandWord, opField_commandWord, hb]

/-- What the decoder reads is a command word or a frame. -/
theorem decode_eq_ok {bs : List Byte} {i : Instr} {rest : List Byte} (h : decode bs = .ok (i, rest)) :
    (∃ w, bs = commandBytes w ++ rest ∧ i = decodeCommand w) ∨ decodeFrame bs = .ok (i, rest) := by
  unfold decode at h
  split at h
  · cases h
  · cases h
  · split at h
    · rename_i hlt
      cases h
      exact .inl ⟨_, by rw [commandBytes_of_upper_lt hlt]; rfl, rfl⟩
    · split at h
      · exact .inr h
      · cases h

/-- No field of a command word can be illegal. -/
theorem wf_decodeCommand (w : CommandWord) : (decodeCommand w).wf = true := by
  rcases decodeCommand_cases w with ⟨d, h⟩ | ⟨d, h⟩ | ⟨d, h⟩ | ⟨d, h⟩ | ⟨d, h⟩ | ⟨d, h⟩ | ⟨d, h⟩ | ⟨d, h⟩ <;> rw [h] <;> rfl

/-- Settles O1: a frame starts with the marker and is read back (`decodeFrame_frameBytes`), and every other instruction has a
command word, whose two bytes are read back (`decode_commandBytes`). -/
theorem decodeOfEncodeIsInstruction : Obligations.DecodeOfEncodeIsInstruction := by
  intro i rest hwf
  cases hw : encodeCommand i with
  | some w =>
    obtain ⟨hbytes, hword⟩ := encode_of_encodeCommand hw
    rw [hbytes, decode_commandBytes, hword]
  | none =>
    cases i with
    | frame c q k p x =>
      have hfits : p.length ≤ 65535 := by simpa [Instr.wf] using hwf
      exact (decode_marker _).trans (decodeFrame_frameBytes c q k p x rest hfits)
    | _ d => cases hw

/-- Settles O2: a command word's bytes are its encoding (`encode_decodeCommand`), a frame's are what `decodeFrame` has read. -/
theorem encodeOfDecodeIsBytes : Obligations.EncodeOfDecodeIsBytes := by
  intro bs i rest h
  obtain ⟨w, rfl, rfl⟩ | hf := decode_eq_ok h
  · exact ⟨by rw [encode_decodeCommand], wf_decodeCommand w⟩
  · obtain ⟨c, q, k, p, x, rfl, hp, hbs⟩ := decodeFrame_eq_ok hf
    exact ⟨hbs, by simpa [Instr.wf] using hp⟩

/-- Settles O4: the decoder evaluated on each of the nine. -/
theorem writtenOutWordsDecode : Obligations.WrittenOutWordsDecode := by
  unfold Obligations.WrittenOutWordsDecode
  decide

end Sys2Proof

namespace Sys2Proof.Machine

/-- A frame whose payload does not fit `data_length` is refused, in every state (R116). -/
theorem exec_frame_of_overlong (c : Byte) (q : Half) (k : Byte) {p : List Byte} (h : 65535 < p.length) (x : Half) (s : State) :
    exec (.frame c q k p x) s = .refused .payloadTooLong := if_neg (Nat.not_le.2 h)

/-- Settles O6: both tests of the payload's length fail. -/
theorem overlongPayloadIsRefused : Obligations.OverlongPayloadIsRefused :=
  fun c q k _ x s h => ⟨if_neg (Nat.not_le.2 h), exec_frame_of_overlong c q k h x s⟩

/-- Settles O7: the three meanings do not mention their data byte. -/
theorem dataFieldIsIgnored : Obligations.DataFieldIsIgnored := by
  intro d d' s
  refine ⟨?_, ?_, ?_⟩
  · rw [exec_nop, exec_nop]
  · rw [exec_crcClr, exec_crcClr]
  · rw [exec_fpClr, exec_fpClr]

end Sys2Proof.Machine

namespace Sys2Proof.Asm

/-! ### Lines of the assembler (R61) -/

/-- A character that goes on with an open word. -/
def isPlain (c : Char) : Bool := c != ';' && !isBlank c && c != quoteMark && c != textMark

/-- An open word takes in plain characters until the line ends. -/
theorem lex_word_of_plain {cs : List Char} (h : cs.all isPlain = true) (acc : List Char) :
    lex (.word acc) cs = some [.word (acc.reverse ++ cs)] := by
  induction cs generalizing acc with
  | nil => rw [lex, List.append_nil]
  | cons c cs ih =>
    rw [List.all_cons, Bool.and_eq_true] at h
    obtain ⟨hc, hcs⟩ := h
    simp only [isPlain, Bool.and_eq_true, bne_iff_ne, ne_eq, Bool.not_eq_true'] at hc
    obtain ⟨⟨⟨hsemi, hblank⟩, hquote⟩, htext⟩ := hc
    rw [lex, if_neg hsemi, hblank, if_neg Bool.false_ne_true, if_neg hquote, if_neg htext, ih hcs, List.reverse_cons,
      List.append_assoc, List.singleton_append]

/-- The digits that `byteText` writes are plain characters, and are read as what was written. -/
theorem hexChar_reads {n : Nat} (h : n < 16) : isPlain (hexChar n) = true ∧ hexDigit (hexChar n) = some n := by
  revert n; decide

theorem byteText_plain (d : Byte) : (byteText d).all isPlain = true := by
  have hd := d.isLt
  have hhi := (hexChar_reads (n := d.toNat / 16) (by omega)).1
  have hlo := (hexChar_reads (n := d.toNat % 16) (by omega)).1
  simp only [byteText, List.all_cons, hhi, hlo]
  decide

/-- The text of a byte is a token of its own, read back as that byte. -/
theorem wordByte_byteText (d : Byte) : wordByte (byteText d) = some d := by
  have hd := d.isLt
  have hhi := (hexChar_reads (n := d.toNat / 16) (by omega)).2
  have hlo := (hexChar_reads (n := d.toNat % 16) (by omega)).2
  simp only [byteText, wordByte, hhi, hlo, Option.bind_some, Option.map_some, Nat.div_add_mod, BitVec.ofNat_toNat,
    BitVec.setWidth_eq]

/-- The text of a byte at the end of a line is its last token. -/
theorem lex_byteText (d : Byte) : lex .between (byteText d) = some [.word (byteText d)] := by
  have h := byteText_plain d
  rw [byteText, List.all_cons, Bool.and_eq_true] at h
  exact lex_word_of_plain h.2 ['0']

/-- `CRC.UPD` or `FP.PUSH` with a byte as `byteText` writes it. -/
theorem assembleTokens_byteText (d : Byte) :
    assembleTokens nameCrcUpd [.word (byteText d)] = some [.crcUpd d] ∧
    assembleTokens nameFpPush [.word (byteText d)] = some [.fpPush d] := by
  have operand (f : Byte → Instr) : oneByteOperand f [.word (byteText d)] = some [f d] := by
    rw [oneByteOperand, tokenByte, wordByte_byteText, Option.map_some]
  exact ⟨operand .crcUpd, operand .fpPush⟩

/-- Settles O8: a line without operand is evaluated; one with a byte is the name, a blank and a token that is read back as the byte
(`lex_byteText`, `assembleTokens_byteText`); and a word is its row's match value with the byte put in (`commandWord_or_data`). -/
theorem assemblerReadsBackItsLines : Obligations.AssemblerReadsBackItsLines := by
  intro d
  have lexed (name : List Char) (h : ∀ cs, lex .between (name ++ ' ' :: cs) = (lex .between cs).map (Token.word name :: ·)) :
      assembleLine (name ++ ' ' :: byteText d) = assembleTokens name [.word (byteText d)] := by
    rw [assembleLine, h, lex_byteText, Option.map_some, Option.bind_some]
  obtain ⟨hupd, hpush⟩ := assembleTokens_byteText d
  refine ⟨by decide, by decide, by decide, ?_, ?_, rfl, rfl, rfl, ?_, ?_⟩
  · exact (lexed nameCrcUpd fun _ => rfl).trans hupd
  · exact (lexed nameFpPush fun _ => rfl).trans hpush
  · exact congrArg some (commandWord_or_data 2 d).symm
  · exact congrArg some (commandWord_or_data 6 d).symm

end Sys2Proof.Asm
end

section
/-! SUPPORT. The CRC of a byte and of a message: its other forms (R72, R74, R75), its linearity (R76), what it detects (R77), and
the unit's pseudo-instruction (R62, R80). -/

namespace Sys2Proof.Machine

/-! ### The byte XORed into the top first (R72) -/

/-- A bit step without input takes the top bit of what was XORed in for its input, and shifts the rest. -/
theorem crcBit_xor_false (c r : Half) : crcBit (c ^^^ r) false = crcBit c (r.getLsbD 15) ^^^ (r <<< 1) := by
  have hr : crcBit r (r.getLsbD 15) = r <<< 1 := crcBit_of_no_feedback (Bool.xor_self _)
  rw [← hr, ← crcBit_xor, Bool.xor_self]

/-- As many bit steps without input feed the top bits of what was XORed in, and shift the rest. -/
theorem crcBits_of_xor (c r : Half) {n : Nat} (h : n ≤ 16) :
    (List.range n).foldl (fun c _ => crcBit c false) (c ^^^ r) =
      (List.range n).foldl (fun c i => crcBit c (r.getLsbD (15 - i))) c ^^^ (r <<< n) := by
  induction n with
  | zero => simp
  | succ n ih =>
    have htop : (r <<< n).getLsbD 15 = r.getLsbD (15 - n) := by
      rw [BitVec.getLsbD_shiftLeft]
      simp [show ¬ 15 < n by omega]
    simp only [List.range_succ, List.foldl_append, List.foldl_cons, List.foldl_nil]
    rw [ih (by omega), crcBit_xor_false, htop, ← BitVec.shiftLeft_add]

/-- The form's step is the bit step without input. -/
theorem crcByteTopXor_eq (c : Half) (b : Byte) :
    crcByteTopXor c b = (List.range 8).foldl (fun c _ => crcBit c false) (c ^^^ (b.setWidth 16 <<< 8)) := by
  simp only [crcByteTopXor, crcBit, Bool.xor_false]

/-- The bits of the high byte. -/
theorem hi8_getLsbD (v : Half) {i : Nat} (h : i < 8) : (hi8 v).getLsbD i = v.getLsbD (8 + i) := by
  rw [hi8, BitVec.getLsbD_extractLsb']
  simp [h]

theorem hi8_xor (u v : Half) : hi8 (u ^^^ v) = hi8 u ^^^ hi8 v := by
  apply BitVec.eq_of_getLsbD_eq
  intro i hi
  rw [BitVec.getLsbD_xor, hi8_getLsbD _ hi, hi8_getLsbD _ hi, hi8_getLsbD _ hi, BitVec.getLsbD_xor]

/-- A byte moved up is the high byte. -/
@[simp] theorem hi8_byte_shiftLeft (b : Byte) : hi8 (b.setWidth 16 <<< 8) = b := by
  apply BitVec.eq_of_getLsbD_eq
  intro i hi
  rw [hi8_getLsbD _ hi, BitVec.getLsbD_shiftLeft]
  simp [show 8 + i < 16 by omega, show i < 16 by omega]

/-- Moved up by eight, the low byte is the high byte. -/
@[simp] theorem hi8_shiftLeft_eight (v : Half) : hi8 (v <<< 8) = lo8 v := by
  apply BitVec.eq_of_getLsbD_eq
  intro i hi
  rw [hi8_getLsbD _ hi, BitVec.getLsbD_shiftLeft, lo8, BitVec.getLsbD_extractLsb']
  simp [hi, show 8 + i < 16 by omega]

/-- Eight shifts and eight more leave nothing. -/
theorem shiftLeft_eight_eight (v : Half) : (v <<< 8) <<< 8 = 0 := by
  rw [← BitVec.shiftLeft_add]
  exact BitVec.shiftLeft_eq_zero (by decide)

/-- R72: bit 7 first. -/
theorem crcByte_eq_foldl_range (c : Half) (b : Byte) :
    crcByte c b = (List.range 8).foldl (fun c i => crcBit c (b.getLsbD (7 - i))) c := rfl

/-- Eight bit steps without input feed the high byte of what was XORed in, and move the low one up. -/
theorem crcBits_eight_of_xor (c r : Half) :
    (List.range 8).foldl (fun c _ => crcBit c false) (c ^^^ r) = crcByte c (hi8 r) ^^^ (r <<< 8) := by
  have hbit (c : Half) (i : Nat) (hi : i ∈ List.range 8) :
      crcBit c (r.getLsbD (15 - i)) = crcBit c ((hi8 r).getLsbD (7 - i)) := by
    have := List.mem_range.1 hi
    rw [hi8_getLsbD _ (by omega), show 8 + (7 - i) = 15 - i by omega]
  rw [crcBits_of_xor _ _ (by decide), List.foldl_ext _ _ _ hbit, ← crcByte_eq_foldl_range]

/-- Settles O19: eight bit steps feed the byte that was XORed into the top, and leave nothing else of it. -/
theorem crcByteIsTopXorForm : Obligations.CrcByteIsTopXorForm := by
  intro c b
  rw [crcByteTopXor_eq, crcBits_eight_of_xor, hi8_byte_shiftLeft, shiftLeft_eight_eight]
  exact BitVec.xor_zero.symm

/-- A byte step sees only the register with the byte XORed into its top. -/
theorem crcByte_eq_crcByte_zero (c : Half) (b : Byte) : crcByte c b = crcByte (c ^^^ (b.setWidth 16 <<< 8)) 0 := by
  rw [crcByteIsTopXorForm, crcByteIsTopXorForm, crcByteTopXor_eq, crcByteTopXor_eq]
  simp

/-- A byte step feeds the high byte of the register with the data byte XORed in, and moves the low byte up. -/
theorem crcByte_eq_shift_xor (c : Half) (b : Byte) : crcByte c b = (c <<< 8) ^^^ crcByte 0 (hi8 c ^^^ b) := by
  have hv : c ^^^ (b.setWidth 16 <<< 8) = (0 : Half) ^^^ (c ^^^ (b.setWidth 16 <<< 8)) := BitVec.zero_xor.symm
  have hshift : (c ^^^ (b.setWidth 16 <<< 8)) <<< 8 = c <<< 8 := by
    rw [BitVec.shiftLeft_xor_distrib, shiftLeft_eight_eight]
    exact BitVec.xor_zero
  rw [crcByteIsTopXorForm, crcByteTopXor_eq, hv, crcBits_eight_of_xor, hi8_xor, hi8_byte_shiftLeft, hshift, BitVec.xor_comm]

/-! ### The byte-parallel equations (R74) -/

/-- Values put together bit by bit, from bit 0 up, have those bits. -/
theorem getLsbD_foldl_or_bits (f : Nat → Bool) (n : Nat) {j : Nat} (hj : j < 16) :
    ((List.range n).foldl (fun (v : Half) i => v ||| ((BitVec.ofBool (f i)).setWidth 16 <<< i)) 0).getLsbD j =
      (decide (j < n) && f j) := by
  induction n with
  | zero => simp
  | succ n ih =>
    simp only [List.range_succ, List.foldl_append, List.foldl_cons, List.foldl_nil, BitVec.getLsbD_or, ih,
      BitVec.getLsbD_shiftLeft, BitVec.getLsbD_setWidth, BitVec.getLsbD_ofBool]
    rcases Nat.lt_trichotomy j n with h | rfl | h
    · simp [h, Nat.lt_succ_of_lt h]
    · simp [hj]
    · simp [show ¬ j < n by omega, show ¬ j < n + 1 by omega, show j - n ≠ 0 by omega]

/-- R74: the bits of the parallel form are its equations. -/
theorem crcByteParallel_getLsbD (c : Half) (b : Byte) {i : Nat} (hi : i < 16) :
    (crcByteParallel c b).getLsbD i = crcParallelBit c b i := by
  rw [crcByteParallel, getLsbD_foldl_or_bits _ _ hi]
  simp [hi]

/-- R74, each equation: the eight bit steps unrolled, and the bits of the register and the byte put in the equation's order. -/
theorem crcByte_getLsbD (c : Half) (b : Byte) {i : Nat} (hi : i < 16) : (crcByte c b).getLsbD i = crcParallelBit c b i := by
  simp only [crcByte, List.foldl_cons, List.foldl_nil]
  interval_cases i <;>
    simp only [crcBit_getLsbD, crcParallelBit, Nat.reduceLT, Nat.reduceSub, Nat.reduceEqDiff, OfNat.ofNat_ne_zero, decide_true,
      decide_false, Bool.or_false, Bool.or_true, Bool.and_true, Bool.and_false, Bool.false_and, Bool.true_and, Bool.xor_false,
      Bool.false_xor] <;>
    simp only [Bool.xor_assoc, Bool.xor_comm, Bool.xor_left_comm]

/-- Settles O20: bit by bit. -/
theorem crcByteIsParallelForm : Obligations.CrcByteIsParallelForm :=
  fun c b => BitVec.eq_of_getLsbD_eq fun i hi => by rw [crcByte_getLsbD c b hi, crcByteParallel_getLsbD c b hi]

/-! ### The table (R75) -/

/-- The printed table has 256 entries, entry `i` the CRC of the byte `i`. -/
theorem crcTable_entries :
    crcTable.length = 256 ∧ ∀ i : Fin 256, crcTable[i.val]? = some (crcByte 0x0000 (BitVec.ofFin i)) := by
  decide +kernel

/-- Settles O21: the entries are evaluated, and a byte step is the table's by `crcByte_eq_shift_xor`. -/
theorem crcByteIsTableForm : Obligations.CrcByteIsTableForm := by
  obtain ⟨hlen, hentry⟩ := crcTable_entries
  have entry (i : Byte) : crcTable[i.toNat]? = some (crcByte 0x0000 i) := hentry i.toFin
  refine ⟨hlen, entry, fun c b => ?_⟩
  rw [crcByteTable, List.getD_eq_getElem?_getD, entry, Option.getD_some, crcByte_eq_shift_xor]

/-! ### Linearity, leading zeros and the residue (R76) -/

/-- Settles O22: byte by byte, from the linearity of one byte. -/
theorem crcIsLinear : Obligations.CrcIsLinear := by
  intro c0 c1 m n hlen
  induction m generalizing c0 c1 n with
  | nil =>
    cases n with
    | nil => rfl
    | cons b' n => cases hlen
  | cons b m ih =>
    cases n with
    | nil => cases hlen
    | cons b' n =>
      rw [List.zipWith_cons_cons, crc16From_cons, crc16From_cons, crc16From_cons, crcByte_xor]
      exact ih _ _ n (Nat.succ.inj hlen)

/-- From 0, zero bytes leave the register at 0. -/
theorem crc16From_zero_replicate (k : Nat) : crc16From 0 (List.replicate k 0) = 0 := by
  induction k with
  | zero => rfl
  | succ k ih => rw [List.replicate_succ, crc16From_cons, crcByte_zero_zero, ih]

/-- The register's own high byte moves its low byte up. -/
theorem crcByte_hi8 (c : Half) : crcByte c (hi8 c) = c <<< 8 := by
  rw [crcByte_eq_shift_xor, BitVec.xor_self]
  exact BitVec.xor_zero

/-- Its two bytes, the high one first, take the register to 0. -/
theorem crcByte_hi8_lo8 (c : Half) : crcByte (crcByte c (hi8 c)) (lo8 c) = 0 := by
  rw [crcByte_hi8, ← hi8_shiftLeft_eight, crcByte_hi8, shiftLeft_eight_eight]

/-- Settles O23: zero bytes leave the initial register alone, the register's two bytes take it to 0, and the counterexample in wire
order is evaluated. -/
theorem crcLeadingZerosAndResidue : Obligations.CrcLeadingZerosAndResidue := by
  refine ⟨fun k m => ?_, fun m => ?_, by decide +kernel⟩
  · rw [crc16, crc16From_append, crcInit]
    exact congrArg (crc16From · m) (crc16From_zero_replicate k)
  · rw [crc16, crc16From_append]
    exact crcByte_hi8_lo8 _

/-! ### Verification and flipped bits (R77, R117) -/

/-- The trailer is right exactly when its bytes are those of the CRC. -/
theorem crcVerify_iff (m : List Byte) (t0 t1 : Byte) : crcVerify m t0 t1 = true ↔ t0 = lo8 (crc16 m) ∧ t1 = hi8 (crc16 m) := by
  simp only [crcVerify, Bool.and_eq_true, beq_iff_eq]

/-- A list verifies with the bytes of a half exactly when that is its CRC. -/
theorem crcVerify_bytes_iff (m : List Byte) (v : Half) : crcVerify m (lo8 v) (hi8 v) = true ↔ v = crc16 m := by
  rw [crcVerify_iff, half_eq_iff]

/-- From one register, two bytes with the same outcome are one byte. -/
theorem crcByte_injective_right {c : Half} {b b' : Byte} (h : crcByte c b = crcByte c b') : b = b' := by
  rw [crcByte_eq_crcByte_zero, crcByte_eq_crcByte_zero c b'] at h
  have hb := congrArg hi8 ((BitVec.xor_right_inj _).1 (crcByte_injective 0 h))
  rwa [hi8_byte_shiftLeft, hi8_byte_shiftLeft] at hb

/-- A flipped bit is another byte. -/
theorem xor_bit_ne (x : Byte) {k : Nat} (hk : k < 8) : x ^^^ ((1 : Byte) <<< k) ≠ x := by
  have hbit : (1 : Byte) <<< k ≠ 0 := by revert k; decide
  intro h
  exact hbit (by simpa using h)

/-- Another byte in a message gives it another CRC. -/
theorem crc16_ne_of_byte_ne (pre post : List Byte) {x y : Byte} (h : x ≠ y) :
    crc16 (pre ++ x :: post) ≠ crc16 (pre ++ y :: post) := by
  simp only [crc16, crc16From_append, crc16From_cons]
  exact fun heq => h (crcByte_injective_right (crc16From_injective post heq))

/-- Settles O24: a flipped bit in the message changes the CRC (`crc16_ne_of_byte_ne`), one in the trailer makes it another byte. -/
theorem singleBitFlipIsAlwaysDetected : Obligations.SingleBitFlipIsAlwaysDetected := by
  refine ⟨fun m => (crcVerify_bytes_iff m _).2 rfl, fun pre post x k hk => ?_, fun m k hk => ⟨?_, ?_⟩⟩
  · have hne := crc16_ne_of_byte_ne pre post (xor_bit_ne x hk)
    exact ⟨hne, Bool.eq_false_iff.2 fun hv => hne ((crcVerify_bytes_iff _ _).1 hv).symm⟩
  · exact Bool.eq_false_iff.2 fun hv => xor_bit_ne _ hk ((crcVerify_iff _ _ _).1 hv).1
  · exact Bool.eq_false_iff.2 fun hv => xor_bit_ne _ hk ((crcVerify_iff _ _ _).1 hv).2

/-! ### `CRC.MSG` (R62, R80) -/

/-- `CRC.BYTES` folds its bytes into the accumulator. -/
theorem execAll_crcUpd (m : List Byte) (s : State) : execAll (m.map .crcUpd) s = .next { s with crc := crc16From s.crc m } := by
  induction m generalizing s with
  | nil => rfl
  | cons b m ih => rw [List.map_cons, execAll_cons_of_next (exec_crcUpd b s), ih, crc16From_cons]

/-- `CRC.MSG` leaves the CRC of its bytes. -/
theorem execAll_crcMsg (m : List Byte) (s : State) :
    execAll (Asm.Pseudo.crcMsg m).expand s = .next { s with crc := crc16 m } := by
  rw [Asm.Pseudo.expand, execAll_cons_of_next (exec_crcClr 0 s), execAll_crcUpd]
  rfl

/-- Settles O27: `execAll_crcMsg`, whose result is the trailer that `frame_encode` puts after the bytes. -/
theorem crcUnitComputesTrailer : Obligations.CrcUnitComputesTrailer := by
  refine ⟨execAll_crcMsg, fun c q k p s hp => ⟨_, execAll_crcMsg _ s, ?_⟩⟩
  rw [frameEncode_of_fits c q k hp, frameBytes, trailerBytes, State.crcLo, State.crcHi]

end Sys2Proof.Machine
end

section
/-! SUPPORT. Scans of joined lists and the normal form (R17, R93, R118), pushes of several bytes (R62), and the invariant of every
step and run (R105, R149). -/

namespace Sys2Proof.Machine

/-! ### The scan -/

/-- R93: what a scan leaves is in normal form. -/
theorem normalForm_scan (P : Nat) (B : List Byte) : normalForm P (scan P B).1 = true := by
  induction B using scan_induction (P := P) with
  | wait A h => rw [scan_of_wait h]; exact normalForm_of_wait h
  | found A e k h ih => rw [scan_of_found h]; exact ih

/-- Settles O36: `normalForm_scan`, and a normal form is left as it is (`scan_of_normalForm`). -/
theorem scanReturnsNormalForm : Obligations.ScanReturnsNormalForm :=
  fun P B => ⟨normalForm_scan P B, scan_of_normalForm (normalForm_scan P B)⟩

/-- A pass that finds something looks at eight bytes at least. -/
theorem eight_le_of_judge_found {P : Nat} {B : List Byte} {e : Event} {k : Nat} (h : judge P B = .found e k) : 8 ≤ B.length := by
  obtain ⟨hd, hh, -⟩ := judge_found h
  obtain ⟨m0, m1, l, lh, q, qh, body, rfl, -⟩ := readHeader_eq_some hh
  simp

/-- Where a pass finds something in an aligned list, bytes appended leave the list aligned. -/
theorem align_append_of_found {P : Nat} {A : List Byte} {e : Event} {k : Nat} (h : judge P (align A) = .found e k)
    (C : List Byte) : align (A ++ C) = align A ++ C := by
  have h8 := eight_le_of_judge_found h
  have hne : align A ≠ [] := by
    intro h0
    simp [h0] at h8
  rw [← align_append, align_of_markerPrefix (markerPrefix_append ((align_cases A).resolve_left hne) (by omega) C)]

/-- Settles O37: along the passes over the first list. A pass that waits only aligns, and appending later aligns on the same byte
(`align_append`); a pass that finds something finds it with more bytes behind as well (`judge_append`). -/
theorem scanInTwoGoesIsScanAtOnce : Obligations.ScanInTwoGoesIsScanAtOnce := by
  intro P A B
  induction A using scan_induction (P := P) with
  | wait A h =>
    rw [scan_of_wait h, ← scan_align P (align A ++ B), align_append, scan_align]
    rfl
  | found A e k h ih =>
    have hfound : judge P (align (A ++ B)) = .found e k := by
      rw [align_append_of_found h]
      exact judge_append h B
    rw [scan_of_found hfound, scan_of_found h, align_append_of_found h, List.drop_append_of_le_length (judge_drop h).2, ih]
    rfl

/-- R101: a scan finds no more events than there are bytes. -/
theorem scan_events_length_le (P : Nat) (B : List Byte) : (scan P B).2.length ≤ B.length := by
  induction B using scan_induction (P := P) with
  | wait A h => simp [scan_of_wait h]
  | found A e k h ih =>
    have hk := judge_drop h
    have ha := align_length_le A
    rw [List.length_drop] at ih
    rw [scan_of_found h, List.length_cons]
    omega

/-! ### Pushes -/

/-- The pushes of bytes one by one are one scan of them all behind the buffer. -/
theorem pushBytes_cons_eq_scan (b : Byte) (bs : List Byte) (s : State) :
    pushBytes (b :: bs) s = { s with
      buf := (scan s.cfg.payloadMax.val (s.buf ++ b :: bs)).1,
      out := s.out ++ (scan s.cfg.payloadMax.val (s.buf ++ b :: bs)).2 } := by
  induction bs generalizing b s with
  | nil => rfl
  | cons b' bs ih =>
    have hjoin := scanInTwoGoesIsScanAtOnce s.cfg.payloadMax.val (s.buf ++ [b]) (b' :: bs)
    rw [List.append_assoc, List.singleton_append] at hjoin
    rw [pushBytes_cons, ih, hjoin, ← List.append_assoc]
    rfl

/-- From a normal state this holds of no byte as well. -/
theorem pushBytes_eq_scan_of_normal {s : State} (h : s.normal = true) (bs : List Byte) :
    pushBytes bs s = { s with
      buf := (scan s.cfg.payloadMax.val (s.buf ++ bs)).1,
      out := s.out ++ (scan s.cfg.payloadMax.val (s.buf ++ bs)).2 } := by
  cases bs with
  | nil => simp [scan_of_normalForm h]
  | cons b bs => exact pushBytes_cons_eq_scan b bs s

/-- Pushes only add to the events. -/
theorem pushBytes_out_append (bs : List Byte) (s : State) : ∃ ev, (pushBytes bs s).out = s.out ++ ev := by
  cases bs with
  | nil => exact ⟨[], (List.append_nil _).symm⟩
  | cons b bs => exact ⟨_, by rw [pushBytes_cons_eq_scan]⟩

/-- Pushes only append to the buffer and drop from its front. -/
theorem pushBytes_buf_suffix (bs : List Byte) (s : State) : (pushBytes bs s).buf <:+ s.buf ++ bs := by
  cases bs with
  | nil => simp
  | cons b bs => rw [pushBytes_cons_eq_scan]; exact scan_suffix _ _

/-! ### The normal form is kept (R17) -/

/-- An empty buffer is in normal form. -/
theorem normal_of_buf_nil {s : State} (h : s.buf = []) : s.normal = true := by
  rw [State.normal, h]
  rfl

theorem pushByte_normal (b : Byte) (s : State) : (pushByte b s).normal = true := normalForm_scan _ _

theorem pushBytes_normal {s : State} (h : s.normal = true) (bs : List Byte) : (pushBytes bs s).normal = true := by
  induction bs generalizing s with
  | nil => exact h
  | cons b bs ih => exact ih (pushByte_normal b s)

theorem exec_keeps_normal {i : Instr} {s t : State} (h : s.normal = true) (he : exec i s = .next t) : t.normal = true := by
  obtain ⟨d, -, rfl⟩ | ⟨d, -, rfl⟩ | ⟨d, -, rfl⟩ | ⟨d, -, rfl⟩ | ⟨d, -, rfl⟩ | ⟨d, -, rfl⟩ | ⟨d, -, rfl⟩ | ⟨d, -, rfl⟩ |
    ⟨c, q, k, p, x, -, -, rfl⟩ := exec_next_cases he
  · exact h
  · exact h
  · exact h
  · exact h
  · exact h
  · exact h
  · exact normal_of_buf_nil rfl
  · exact pushByte_normal d s
  · exact pushBytes_normal h _

theorem step_keeps_normal {s t : State} (h : s.normal = true) (hs : step s = .next t) : t.normal = true := by
  obtain ⟨-, rfl⟩ | ⟨rest, -, rfl⟩ | ⟨x, rest, i, -, -, he⟩ | ⟨x, rest, bs, -, -, rfl⟩ := step_next_cases hs
  · exact h
  · exact normal_of_buf_nil rfl
  · exact exec_keeps_normal (s := { s with port := rest, out := [] }) h he
  · exact pushBytes_normal (s := { s with port := rest, out := [] }) h bs

/-- R105: a waiting pass has not seen a whole frame of the greatest length. -/
theorem length_le_of_judge_wait {P : Nat} {B : List Byte} (h : judge P B = .wait) : B.length ≤ 9 + P := by
  obtain hn | ⟨hd, -, hle, hlt⟩ := judge_wait_iff.1 h
  · have := (readHeader_eq_none_iff B).1 hn
    omega
  · rw [frameLength] at hlt
    omega

theorem buf_length_le_of_normal {s : State} (h : s.normal = true) : s.buf.length ≤ 9 + s.cfg.payloadMax.val :=
  length_le_of_judge_wait (normalForm_waits h).2

/-- Settles O43: a buffer in normal form is one that a pass waits on (`length_le_of_judge_wait`). -/
theorem pushNeverOverflows : Obligations.PushNeverOverflows := by
  intro s d h
  have hl := buf_length_le_of_normal h
  refine ⟨hl, ?_⟩
  rw [List.length_append, List.length_singleton, Config.bufCap]
  omega

theorem withinCapacity_of_normal {s : State} (h : s.normal = true) : s.withinCapacity = true := by
  have hl := buf_length_le_of_normal h
  rw [State.withinCapacity, decide_eq_true_eq, Config.bufCap]
  omega

/-- Settles O42: by what a step can do (`step_next_cases`, `exec_next_cases`); what changes the buffer empties it or scans it, and a
scan leaves a normal form. -/
theorem everyStepKeepsNormalForm : Obligations.EveryStepKeepsNormalForm := by
  intro s t h hs
  have ht := step_keeps_normal h hs
  exact ⟨ht, withinCapacity_of_normal ht⟩

/-! ### Runs -/

/-- A run goes on from where its first step went. -/
theorem run_succ_of_step {s t : State} (h : step s = .next t) (k : Nat) :
    Host.Core.run Sys2Proof.core (k + 1) s = Host.Core.run Sys2Proof.core k t := by
  have h' : Sys2Proof.core.step s = .next t := h
  simp only [Host.Core.run, h']

/-- Settles O44: by the number of steps; each one goes on (`noStepStops`) and keeps the normal form. -/
theorem runsNeverStopAndStayNormal : Obligations.RunsNeverStopAndStayNormal := by
  intro k
  induction k with
  | zero => exact fun s h => ⟨s, rfl, h⟩
  | succ k ih =>
    intro s h
    obtain ⟨t, ht⟩ := noStepStops s
    rw [run_succ_of_step ht]
    exact ih t (step_keeps_normal h ht)

/-- Settles O15: the state after reset, field by field; its empty buffer is in normal form. -/
theorem machineStartsReset : Obligations.MachineStartsReset :=
  have hn : State.reset.normal = true := normal_of_buf_nil rfl
  ⟨rfl, rfl, rfl, rfl, rfl, hn, withinCapacity_of_normal hn, rfl⟩

end Sys2Proof.Machine
end

section
/-! SUPPORT. What an instruction can change and what it depends on (10_state.md section 5, log entries 2 and 3), and one step of
the machine: decoded inputs, placed words, streams and commands in a row. -/

namespace Sys2Proof.Machine

/-! ### What an instruction changes -/

/-- Settles O31: by what an instruction can do (`exec_next_cases`), each operation's fields one by one. -/
theorem instructionsWriteOnlyTheirOwnState : Obligations.InstructionsWriteOnlyTheirOwnState := by
  intro i s t h
  have same {u : State} (hu : u.buf = s.buf) : u.buf = s.buf ∧ ∀ a, readByte u.buf a = readByte s.buf a :=
    ⟨hu, fun a => by rw [hu]⟩
  have noEvent : ∃ ev, s.out = s.out ++ ev := ⟨[], (List.append_nil _).symm⟩
  obtain ⟨d, rfl, rfl⟩ | ⟨d, rfl, rfl⟩ | ⟨d, rfl, rfl⟩ | ⟨d, rfl, rfl⟩ | ⟨d, rfl, rfl⟩ | ⟨d, rfl, rfl⟩ | ⟨d, rfl, rfl⟩ |
    ⟨d, rfl, rfl⟩ | ⟨c, q, k, p, x, rfl, -, rfl⟩ := exec_next_cases h
  · exact ⟨fun _ _ => rfl, fun _ _ _ => same rfl, fun _ _ _ => rfl, rfl, rfl, noEvent⟩
  · exact ⟨fun hc _ => absurd rfl (hc d), fun _ _ _ => same rfl, fun _ _ _ => rfl, rfl, rfl, noEvent⟩
  · exact ⟨fun _ hu => absurd rfl (hu d), fun _ _ _ => same rfl, fun _ _ _ => rfl, rfl, rfl, noEvent⟩
  · exact ⟨fun _ _ => rfl, fun _ _ _ => same rfl, fun h3 _ _ => absurd rfl (h3 d), rfl, rfl, _, rfl⟩
  · exact ⟨fun _ _ => rfl, fun _ _ _ => same rfl, fun _ h4 _ => absurd rfl (h4 d), rfl, rfl, _, rfl⟩
  · exact ⟨fun _ _ => rfl, fun _ _ _ => same rfl, fun _ _ h7 => absurd rfl (h7 d), rfl, rfl, _, rfl⟩
  · exact ⟨fun _ _ => rfl, fun hc _ _ => absurd rfl (hc d), fun _ _ _ => rfl, rfl, rfl, noEvent⟩
  · exact ⟨fun _ _ => rfl, fun _ hp _ => absurd rfl (hp d), fun _ _ _ => rfl, rfl, rfl, _, rfl⟩
  · exact ⟨fun _ _ => pushBytes_crc s _, fun _ _ hf => absurd rfl (hf c q k p x), fun _ _ _ => pushBytes_ill s _,
      pushBytes_cfg s _, pushBytes_port s _, pushBytes_out_append _ s⟩

/-- Pushes do not look at `CRC`. -/
theorem pushBytes_withCrc (bs : List Byte) (s : State) (c : Half) :
    pushBytes bs { s with crc := c } = { pushBytes bs s with crc := c } := by
  induction bs generalizing s with
  | nil => rfl
  | cons b bs ih => exact ih (pushByte b s)

/-- Settles O32: no push reads `CRC` (`pushBytes_withCrc`), and `CRC.CLR` and `CRC.UPD` do not mention `BUF`. -/
theorem unitsAreIndependent : Obligations.UnitsAreIndependent := by
  refine ⟨fun s t c i hi h => ?_, fun s t B i hi h => ?_⟩
  · obtain ⟨d, rfl⟩ | ⟨d, rfl⟩ | ⟨x, q, k, p, y, rfl⟩ := hi
    · cases h
      rfl
    · cases h
      rfl
    · obtain ⟨hp, rfl⟩ := exec_frame_next_iff.1 h
      exact exec_frame_next_iff.2 ⟨hp, (pushBytes_withCrc _ s c).symm⟩
  · obtain ⟨d, rfl⟩ | ⟨d, rfl⟩ := hi <;> cases h <;> rfl

/-- Settles O33: what is left of a push is a suffix of the buffer with its bytes appended, and reads are shifted by what is
dropped. -/
theorem bufferOnlyAppendsAndDrops : Obligations.BufferOnlyAppendsAndDrops := by
  refine ⟨fun d s t h => ?_, fun c q k p x s t h => ?_⟩
  · rw [exec_fpPush] at h
    cases h
    have hdrop := List.suffix_iff_eq_drop.1 (scan_suffix s.cfg.payloadMax.val (s.buf ++ [d]))
    refine ⟨_, ?_, hdrop, fun a => ?_⟩
    · rw [List.length_append, List.length_singleton]
      exact Nat.sub_le _ _
    · conv_lhs => rw [hdrop]
      exact readByte_drop _ _ a
  · obtain ⟨-, rfl⟩ := exec_frame_next_iff.1 h
    exact ⟨_, List.suffix_iff_eq_drop.1 (pushBytes_buf_suffix _ s)⟩

/-- Settles O47: both runs are the pushes (`exec_frame_next_iff`, `execAll_fpPush`). -/
theorem frameIsThePushesOfItsBytes : Obligations.FrameIsThePushesOfItsBytes :=
  fun _ _ _ _ _ s hp => ⟨exec_frame_next_iff.2 ⟨hp, rfl⟩, execAll_fpPush _ s⟩

/-! ### One step of the machine -/

/-- A stream that decodes to an instruction without a command word, and to the last byte, is that frame. -/
theorem decodeStream_of_decode {bs : List Byte} {i : Instr} (h : decode bs = .ok (i, [])) (hi : encodeCommand i = none) :
    decodeStream bs = some i := by
  obtain ⟨w, -, rfl⟩ | hf := decode_eq_ok h
  · rw [encodeCommand_decodeCommand] at hi
    cases hi
  · rw [decodeStream, hf]

/-- Settles O9: `step_command` and `step_frame`. -/
theorem stepRunsDecodedInstruction : Obligations.StepRunsDecodedInstruction :=
  fun _ _ => ⟨fun _ hp => step_command hp, fun _ _ hp hd hi => step_frame hp (decodeStream_of_decode hd hi)⟩

/-- Settles O12: `step_nothing`. -/
theorem emptyPortIdles : Obligations.EmptyPortIdles := fun _ hp => step_nothing hp

/-- Settles O11: where the stream is a frame, that frame is the pushes of the same bytes (`decodeStream_eq_some`). -/
theorem streamInputIsPushed : Obligations.StreamInputIsPushed := by
  intro s bs rest hp
  refine ⟨?_, execAll_fpPush bs _⟩
  cases hd : decodeStream bs with
  | none => exact step_bytes hp hd
  | some i =>
    obtain ⟨c, q, k, p, x, rfl, hfits, rfl⟩ := decodeStream_eq_some hd
    rw [step_frame hp hd]
    exact exec_frame_next_iff.2 ⟨hfits, rfl⟩

/-! ### Placed table words -/

/-- Each byte of a number, by its place. -/
theorem leBytes_getElem? {n i : Nat} (h : i < n) (v : Nat) : (leBytes n v)[i]? = some (BitVec.ofNat 8 (v / 256 ^ i)) := by
  induction i generalizing n v with
  | zero =>
    cases n with
    | zero => omega
    | succ n => simp [leBytes]
  | succ i ih =>
    cases n with
    | zero => omega
    | succ n =>
      rw [leBytes, List.getElem?_cons_succ, ih (Nat.lt_of_succ_lt_succ h), Nat.div_div_eq_div_mul, Nat.pow_succ']

/-- The length that stands in bytes 3 and 4 of a number that is a frame's bytes in front. -/
theorem length_of_leBytes_eq_frameBytes {n v : Nat} {c : Byte} {q : Half} {k : Byte} {p : List Byte} {x : Half} {rest : List Byte}
    (hp : p.length ≤ 65535) (h : leBytes (10 + n) v = frameBytes c q k p x ++ rest) : v / 2 ^ 24 % 65536 = p.length := by
  have hlo : some (BitVec.ofNat 8 (v / 256 ^ 3)) = some (lo8 (BitVec.ofNat 16 p.length)) := by
    rw [← leBytes_getElem? (show 3 < 10 + n by omega), h]
    rfl
  have hhi : some (BitVec.ofNat 8 (v / 256 ^ 4)) = some (hi8 (BitVec.ofNat 16 p.length)) := by
    rw [← leBytes_getElem? (show 4 < 10 + n by omega), h]
    rfl
  have hlen := lo8_add_hi8_ofNat hp
  rw [← Option.some.inj hlo, ← Option.some.inj hhi, BitVec.toNat_ofNat, BitVec.toNat_ofNat] at hlen
  omega

/-- The bytes of a table word that a frame is read from are that frame's and no more (log entry 16). -/
theorem decodeStream_tableBytes {nbits w : Nat} {i : Instr} {rest : List Byte}
    (h : decodeFrame (tableBytes nbits w) = .ok (i, rest)) : decodeStream (tableBytes nbits w) = some i := by
  suffices hrest : rest = [] by rw [decodeStream, h, hrest]
  obtain ⟨c, q, k, p, x, -, hp, hbytes⟩ := decodeFrame_eq_ok h
  have hlen := congrArg List.length hbytes
  rw [List.length_append, frameBytes_length] at hlen
  apply List.eq_nil_of_length_eq_zero
  simp only [tableBytes] at hbytes hlen
  split at hbytes
  · rw [if_pos ‹_›, leBytes_length, length_of_leBytes_eq_frameBytes hp hbytes] at hlen
    omega
  · rw [if_neg ‹_›, leBytes_length] at hlen
    omega

/-- What the decoder reads from a table word stands on the port as an input that is read as that instruction. -/
theorem readInput_of_tableWord {nbits w : Nat} {i : Instr} (h : decodeTableWord nbits w = some i) :
    ∃ x, inputOfTableWord nbits w = some x ∧ readInput x = .instr i := by
  cases hi : encodeCommand i with
  | some cw =>
    refine ⟨.command cw, by simp only [inputOfTableWord, h, hi], ?_⟩
    rw [readInput, (encode_of_encodeCommand hi).2]
  | none =>
    refine ⟨.stream (tableBytes nbits w), by simp only [inputOfTableWord, h, hi], ?_⟩
    have hd : decodeStream (tableBytes nbits w) = some i := by
      unfold decodeTableWord at h
      split at h
      · rename_i j rest hok
        cases h
        obtain ⟨cw, -, rfl⟩ | hf := decode_eq_ok hok
        · rw [encodeCommand_decodeCommand] at hi
          cases hi
        · exact decodeStream_tableBytes hf
      · cases h
    rw [readInput, hd]

/-- Settles O10: the word stands in front of the port as an input that is read as the instruction (`readInput_of_tableWord`). -/
theorem placedWordRunsNext : Obligations.PlacedWordRunsNext := by
  intro s nbits w i h
  obtain ⟨x, hx, hread⟩ := readInput_of_tableWord h
  simp only [State.withFetchWord, hx, step, fetch, hread]

/-! ### Commands in a row -/

/-- Pushes do not look at the port nor at earlier events. -/
theorem pushBytes_withHost (bs : List Byte) (s : State) (port : List Input) (out : List Event) :
    ∃ out', pushBytes bs { s with port := port, out := out } = { pushBytes bs s with port := port, out := out' } := by
  cases bs with
  | nil => exact ⟨out, rfl⟩
  | cons b bs => exact ⟨_, by rw [pushBytes_cons_eq_scan, pushBytes_cons_eq_scan]⟩

/-- An instruction does not look at the port nor at earlier events. -/
theorem exec_withHost {i : Instr} {s t : State} (h : exec i s = .next t) (port : List Input) (out : List Event) :
    ∃ out', exec i { s with port := port, out := out } = .next { t with port := port, out := out' } := by
  cases i with
  | frame c q k p x =>
    obtain ⟨hp, rfl⟩ := exec_frame_next_iff.1 h
    obtain ⟨out', hpush⟩ := pushBytes_withHost (frameBytes c q k p x) s port out
    exact ⟨out', exec_frame_next_iff.2 ⟨hp, hpush.symm⟩⟩
  | _ d =>
    cases h
    exact ⟨_, rfl⟩

/-- Commands at the front of the port, and the instructions one by one from the same block with another port and events. -/
theorem run_commands (ws : List CommandWord) (rest : List Input) (s : State) (out : List Event) :
    ∃ u out', execAll (ws.map decodeCommand) s = .next u ∧
      Host.Core.run Sys2Proof.core ws.length { s with port := ws.map .command ++ rest, out := out } =
        .next { u with port := rest, out := out' } := by
  induction ws generalizing s out with
  | nil => exact ⟨s, out, rfl, rfl⟩
  | cons w ws ih =>
    obtain ⟨t, ht⟩ := exec_decodeCommand w s
    obtain ⟨out', hstep⟩ := exec_withHost ht (ws.map .command ++ rest) []
    obtain ⟨u, out'', hall, hrun⟩ := ih t out'
    refine ⟨u, out'', (execAll_cons_of_next ht _).trans hall, ?_⟩
    have hcmd := step_command (s := { s with port := .command w :: (ws.map .command ++ rest), out := out }) rfl
    exact (run_succ_of_step (hcmd.trans hstep) _).trans hrun

/-- Settles O16: `run_commands`. -/
theorem commandsRunInOrder : Obligations.CommandsRunInOrder := by
  intro ws rest s hp
  obtain ⟨u, out', hall, hrun⟩ := run_commands ws rest s s.out
  rw [← hp] at hrun
  exact ⟨_, u, hrun, hall, rfl, rfl, rfl, rfl, rfl⟩

end Sys2Proof.Machine
end

section
/-! SUPPORT. Whole frames in a scan: delivered (R94, R120), with another trailer (R95), and cut (R53). -/

namespace Sys2Proof.Machine

/-- Behind a first marker byte another one is scanned as if it stood alone. -/
theorem scan_marker_marker (P : Nat) (bs : List Byte) : scan P (marker0 :: marker0 :: bs) = scan P (marker0 :: bs) := by
  have hskip : align (marker0 :: marker0 :: bs) = align (marker0 :: bs) := by
    rw [align, if_neg]
    simp only [markerPrefix, Bool.and_eq_true, not_and]
    exact fun _ => by decide
  rw [← scan_align, hskip, scan_align]

/-- R120: into a buffer that holds no more than a first marker byte, bytes that start with one are pushed as if they were scanned
alone. -/
theorem pushBytes_of_lone_marker {s : State} (h : s.buf = [] ∨ s.buf = [0x55]) {bs : List Byte} (hbs : bs.head? = some marker0) :
    pushBytes bs s = { s with
      buf := (scan s.cfg.payloadMax.val bs).1, out := s.out ++ (scan s.cfg.payloadMax.val bs).2 } := by
  obtain ⟨tail, rfl⟩ := List.head?_eq_some_iff.1 hbs
  have hscan : scan s.cfg.payloadMax.val (s.buf ++ marker0 :: tail) = scan s.cfg.payloadMax.val (marker0 :: tail) := by
    obtain h | h := h <;> rw [h]
    · rfl
    · exact scan_marker_marker _ tail
  rw [pushBytes_cons_eq_scan, hscan]

/-- What a pass waits for in the beginning of a list, where it finds something in the whole that is longer. -/
theorem judge_wait_of_append_found {P : Nat} {A C : List Byte} {e : Event} {k : Nat} (h : judge P (A ++ C) = .found e k)
    (hk : A.length < k) : judge P A = .wait := by
  cases hA : judge P A with
  | wait => rfl
  | found e' k' =>
    have heq := (judge_append hA C).symm.trans h
    cases heq
    have := (judge_drop hA).2
    omega

section Frame
variable (c : Byte) (q : Half) (k : Byte) (p : List Byte) (x : Half)

/-- R63: the header that stands in front of a frame. -/
def frameHeader : Header := { control := c, dataLength := BitVec.ofNat 16 p.length, sequence := q, commandId := k }

@[simp] theorem readHeader_frameBytes : readHeader (frameBytes c q k p x) = some (frameHeader c q k p) := by
  simp [frameBytes, frameBody, readHeader, frameHeader]

@[simp] theorem align_frameBytes : align (frameBytes c q k p x) = frameBytes c q k p x := align_of_markerPrefix rfl

/-- R91: the trailer of a frame is right exactly when it is the CRC of the bytes before it. -/
theorem checksumOk_frameBytes_iff : checksumOk (frameBytes c q k p x) p.length = true ↔ x = crc16 (frameBody c q k p) := by
  have hlo : (frameBytes c q k p x)[8 + p.length]? = some (lo8 x) := frameBytes_getElem?_trailer c q k p x 0
  have hhi : (frameBytes c q k p x)[8 + (p.length + 1)]? = some (hi8 x) := frameBytes_getElem?_trailer c q k p x 1
  rw [checksumOk_iff, List.getElem?_drop, List.getElem?_drop, hlo, hhi, frameBytes_take_body, Option.some.injEq, Option.some.injEq,
    half_eq_iff]

variable {p}

theorem frameHeader_dataLength (hp : p.length ≤ 65535) : (frameHeader c q k p).dataLength.toNat = p.length := by
  simp only [frameHeader, BitVec.toNat_ofNat]
  omega

/-- R94: a pass delivers a frame with its right trailer. -/
theorem judge_frameBytes_crc {P : Nat} (hP : p.length ≤ P) (hp : p.length ≤ 65535) :
    judge P (frameBytes c q k p (crc16 (frameBody c q k p))) = .found (.frame c k q p) (10 + p.length) := by
  have hlen := frameHeader_dataLength c q k hp
  have hj := judge_of_checksumOk (P := P) (readHeader_frameBytes c q k p (crc16 (frameBody c q k p))) (hlen.le.trans hP)
    (by rw [frameLength, hlen, frameBytes_length]) (by rw [hlen]; exact (checksumOk_frameBytes_iff c q k p _).2 rfl)
  rw [hj, frameEvent, frameLength, hlen, payloadOf, frameBytes_drop_header, List.take_left]
  rfl

/-- R95: a pass rejects a frame with another trailer. -/
theorem judge_frameBytes_of_ne {P : Nat} (hP : p.length ≤ P) (hp : p.length ≤ 65535) (hx : x ≠ crc16 (frameBody c q k p)) :
    judge P (frameBytes c q k p x) = .found .checksumError 1 := by
  have hlen := frameHeader_dataLength c q k hp
  exact judge_of_not_checksumOk (readHeader_frameBytes c q k p x) (hlen.le.trans hP)
    (by rw [frameLength, hlen, frameBytes_length]) (by rw [hlen]; exact mt (checksumOk_frameBytes_iff c q k p x).1 hx)

/-- R120: a scan of a frame with its right trailer delivers it and leaves nothing. -/
theorem scan_frameBytes_crc {P : Nat} (hP : p.length ≤ P) (hp : p.length ≤ 65535) :
    scan P (frameBytes c q k p (crc16 (frameBody c q k p))) = ([], [.frame c k q p]) := by
  have hj := judge_frameBytes_crc c q k hP hp
  rw [← align_frameBytes c q k p] at hj
  rw [scan_of_found hj, align_frameBytes, List.drop_eq_nil_of_le (frameBytes_length c q k p _).le]
  rfl

/-- R53: a scan of a frame's beginning finds nothing. -/
theorem scan_take_frameBytes {P : Nat} (hP : p.length ≤ P) (hp : p.length ≤ 65535) {n : Nat} (hn : n < 10 + p.length) :
    (scan P ((frameBytes c q k p (crc16 (frameBody c q k p))).take n)).2 = [] := by
  have halign (f : List Byte) : align ((marker0 :: marker1 :: f).take n) = (marker0 :: marker1 :: f).take n := by
    match n with
    | 0 => rfl
    | 1 => rfl
    | _ + 2 => exact align_of_markerPrefix rfl
  have hj := judge_frameBytes_crc c q k hP hp
  rw [← List.take_append_drop n (frameBytes c q k p (crc16 (frameBody c q k p)))] at hj
  have hwait := judge_wait_of_append_found hj (by rw [List.length_take]; omega)
  rw [scan_of_wait]
  exact (congrArg (judge P) (halign _)).trans hwait

end Frame

/-- Settles O48: the pushes are a scan of the frame's bytes (`pushBytes_of_lone_marker`), which delivers the whole frame
(`scan_frameBytes_crc`) and finds nothing in a beginning of it (`scan_take_frameBytes`). -/
theorem frameRoundTrip : Obligations.FrameRoundTrip := by
  intro c q k p s hbuf hP
  have hp : p.length ≤ 65535 := hP.trans (Nat.le_of_lt_succ s.cfg.payloadMax.isLt)
  have hscan := scan_frameBytes_crc c q k hP hp
  refine ⟨_, frameEncode_of_fits c q k hp, rfl, exec_frame_next_iff.2 ⟨hp, ?_⟩, fun n hn => ?_, ?_⟩
  · rw [pushBytes_of_lone_marker hbuf rfl, hscan]
  · cases n with
    | zero => rfl
    | succ n =>
      have hcut := scan_take_frameBytes c q k hP hp (frameBytes_length c q k p _ ▸ hn)
      rw [pushBytes_of_lone_marker hbuf rfl]
      simp only [hcut, List.append_nil]
  · rw [decodeBuffer, hscan]
    rfl

/-- Settles O49: the pushes are a scan of the frame's bytes, whose first pass rejects them (`judge_frameBytes_of_ne`). -/
theorem wrongTrailerGivesChecksumError : Obligations.WrongTrailerGivesChecksumError := by
  intro c q k p x s hbuf hP hx
  have hp : p.length ≤ 65535 := hP.trans (Nat.le_of_lt_succ s.cfg.payloadMax.isLt)
  have hj := judge_frameBytes_of_ne c q k x hP hp hx
  rw [← align_frameBytes c q k p] at hj
  refine exec_frame_next_iff.2 ⟨hp, ?_⟩
  rw [pushBytes_of_lone_marker (.inl hbuf) rfl, scan_of_found hj, align_frameBytes]
  rfl

end Sys2Proof.Machine
end

section
/-! SUPPORT. One push into a normal state: `NEED` (R16), the phase machine (R102), the events of a push (R101), and what a
delivered frame says of the buffer (10_state.md section 1). -/

namespace Sys2Proof.Machine

/-! ### A header in a normal state -/

/-- R17 (d): the length of a held header fits, and its frame is not complete. -/
theorem header_of_normal {s : State} (h : s.normal = true) {hd : Header} (hh : readHeader s.buf = some hd) :
    hd.dataLength.toNat ≤ s.cfg.payloadMax.val ∧ s.buf.length < frameLength hd := by
  obtain hn | ⟨hd', hh', hle, hlt⟩ := judge_wait_iff.1 (normalForm_waits h).2
  · rw [hn] at hh
    cases hh
  · rw [hh'] at hh
    cases hh
    exact ⟨hle, hlt⟩

/-- Settles O53: the header is there from 8 bytes on, and its frame is longer than the buffer (`header_of_normal`). -/
theorem needIsBetweenOneAnd65537 : Obligations.NeedIsBetweenOneAnd65537 := by
  refine ⟨fun s => need_eq_none_of_blen_lt_eight, fun s hn h8 => ?_⟩
  obtain ⟨hd, hh⟩ := readHeader_of_eight_le h8
  have hlt := (header_of_normal hn hh).2
  have h16 := hd.dataLength.isLt
  rw [frameLength] at hlt
  rw [State.blen] at h8
  refine ⟨10 + (hd.dataLength.toNat : Int) - (s.buf.length : Int), hd.dataLength, ?_, ?_, rfl, by omega, by omega⟩
  · rw [State.need, hh, Option.map_some]
  · rw [State.hLen, hh, Option.map_some]

/-! ### The phase machine (R102) -/

/-- `align` drops a first byte with which no marker starts. -/
theorem align_cons_of_not {b : Byte} {bs : List Byte} (h : ¬ markerPrefix (b :: bs) = true) : align (b :: bs) = align bs := by
  rw [align, if_neg h]

theorem align_singleton_of_ne {b : Byte} (h : b ≠ marker0) : align [b] = [] :=
  align_cons_of_not (by simpa [markerPrefix] using h)

theorem align_marker0_of_ne {b : Byte} (h : b ≠ marker1) : align [marker0, b] = align [b] :=
  align_cons_of_not (by simpa [markerPrefix] using h)

/-- A push whose scan finds nothing. -/
theorem exec_fpPush_quiet {s : State} {d : Byte} {B : List Byte} (h : scan s.cfg.payloadMax.val (s.buf ++ [d]) = (B, [])) :
    exec (.fpPush d) s = .next { s with buf := B } := by
  rw [exec_fpPush, h]
  simp only [List.append_nil]

/-- A push whose scan finds nothing and leaves the buffer as it was. -/
theorem exec_fpPush_ignored {s : State} {d : Byte} (h : scan s.cfg.payloadMax.val (s.buf ++ [d]) = (s.buf, [])) :
    exec (.fpPush d) s = .next s := exec_fpPush_quiet h

/-- A push whose scan finds an event in its first pass, the buffer being aligned. -/
theorem exec_fpPush_found {s : State} {d : Byte} {e : Event} {k : Nat} (ha : align (s.buf ++ [d]) = s.buf ++ [d])
    (hj : judge s.cfg.payloadMax.val (s.buf ++ [d]) = .found e k) :
    exec (.fpPush d) s = .next { s with
      buf := (scan s.cfg.payloadMax.val ((s.buf ++ [d]).drop k)).1,
      out := s.out ++ e :: (scan s.cfg.payloadMax.val ((s.buf ++ [d]).drop k)).2 } := by
  rw [← ha] at hj
  rw [exec_fpPush, scan_of_found hj, ha]

/-- A push that a pass waits on, the buffer being aligned. -/
theorem exec_fpPush_kept {s : State} {d : Byte} (ha : align (s.buf ++ [d]) = s.buf ++ [d])
    (hj : judge s.cfg.payloadMax.val (s.buf ++ [d]) = .wait) : exec (.fpPush d) s = .next { s with buf := s.buf ++ [d] } := by
  rw [← ha] at hj
  have hscan := scan_of_wait hj
  rw [ha] at hscan
  exact exec_fpPush_quiet hscan

/-- R117 says of a trailer what R91 says of it. -/
theorem crcVerify_eq_checksumOk {B : List Byte} {n : Nat} {t0 t1 : Byte} (h0 : B[8 + n]? = some t0) (h1 : B[9 + n]? = some t1) :
    crcVerify (B.take (8 + n)) t0 t1 = checksumOk B n := by
  simp [crcVerify, checksumOk, readByte, h0, h1]

/-- The trailer that a push completes: its second byte is the pushed one. -/
theorem crcVerify_push {B : List Byte} {d : Byte} {n : Nat} (h : B.length + 1 = 10 + n) :
    crcVerify ((B ++ [d]).take (8 + n)) (((B ++ [d])[8 + n]?).getD 0) d = checksumOk (B ++ [d]) n := by
  have h9 : 9 + n = B.length := by omega
  have h1 : (B ++ [d])[9 + n]? = some d := by rw [h9]; exact readByte_append_self B d
  have h0 : (B ++ [d])[8 + n]? = some (((B ++ [d])[8 + n]?).getD 0) := by
    rw [List.getElem?_eq_getElem (by rw [List.length_append]; omega)]
    rfl
  exact crcVerify_eq_checksumOk h0 h1

/-- Rows 1 and 2: hunting, only a first marker byte is kept. -/
theorem exec_fpPush_hunt {s : State} (h : s.buf = []) (d : Byte) :
    (d = 0x55 → exec (.fpPush d) s = .next { s with buf := [0x55] }) ∧ (d ≠ 0x55 → exec (.fpPush d) s = .next s) := by
  refine ⟨fun hd => exec_fpPush_quiet ?_, fun hd => exec_fpPush_ignored ?_⟩
  · rw [h, hd]
    exact scan_of_wait rfl
  · have ha : align ([] ++ [d]) = [] := align_singleton_of_ne hd
    rw [h, scan_of_wait (by rw [ha]; rfl), ha]

/-- Rows 3 to 5: after a first marker byte, the second one is kept, another first one takes its place, and any other byte takes both
away. -/
theorem exec_fpPush_mark1 {s : State} (h : s.buf = [0x55]) (d : Byte) :
    (d = 0x66 → exec (.fpPush d) s = .next { s with buf := [0x55, 0x66] }) ∧
    (d = 0x55 → exec (.fpPush d) s = .next s) ∧
    (d ≠ 0x55 → d ≠ 0x66 → exec (.fpPush d) s = .next { s with buf := [] }) := by
  refine ⟨fun hd => exec_fpPush_quiet ?_, fun hd => exec_fpPush_ignored ?_, fun h5 h6 => exec_fpPush_quiet ?_⟩
  · rw [h, hd]
    exact scan_of_wait rfl
  · rw [h, hd]
    exact scan_of_wait rfl
  · have ha : align ([0x55] ++ [d]) = [] := (align_marker0_of_ne h6).trans (align_singleton_of_ne h5)
    rw [h, scan_of_wait (by rw [ha]; rfl), ha]

/-- Settles O41: rows 1 to 5 are `exec_fpPush_hunt` and `exec_fpPush_mark1`; from two bytes on the buffer stays aligned when a byte
is appended, and each row is one verdict of the first pass. -/
theorem phaseMachineRows : Obligations.PhaseMachineRows := by
  intro s d hn
  obtain ⟨hhunt, hmark1, -⟩ := phaseAndResultByLength.2 s hn
  have haligned (hl : 2 ≤ s.buf.length) : align (s.buf ++ [d]) = s.buf ++ [d] := align_append_of_normalForm hn hl [d]
  have hlen : (s.buf ++ [d]).length = s.buf.length + 1 := List.length_append
  have header (hp : s.phase = .header) := (phaseOf_eq_header_iff s.buf).1 hp
  have body (hp : s.phase = .body) : 2 ≤ s.buf.length := le_trans (by decide) ((phaseOf_eq_body_iff s.buf).1 hp)
  refine ⟨fun hp => (exec_fpPush_hunt (hhunt hp) d).1, fun hp => (exec_fpPush_hunt (hhunt hp) d).2,
    fun hp => (exec_fpPush_mark1 (hmark1 hp) d).1, fun hp => (exec_fpPush_mark1 (hmark1 hp) d).2.1,
    fun hp => (exec_fpPush_mark1 (hmark1 hp) d).2.2, ?_, ?_, ?_, ?_, ?_, ?_⟩
  · intro hp hl
    exact exec_fpPush_kept (haligned (header hp).1) (judge_wait_iff.2 (.inl ((readHeader_eq_none_iff _).2 (hlen ▸ hl))))
  · intro hd hp hh hle
    refine exec_fpPush_kept (haligned (header hp).1) (judge_wait_iff.2 (.inr ⟨hd, hh, hle, ?_⟩))
    have := (header hp).2
    rw [hlen, frameLength]
    omega
  · intro hd hp hh hlt
    exact exec_fpPush_found (haligned (header hp).1) (judge_of_overlong hh hlt)
  · intro hd hp hh hl
    have hle := (header_of_normal hn hh).1
    exact exec_fpPush_kept (haligned (body hp))
      (judge_wait_iff.2 (.inr ⟨hd, readHeader_append hh [d], hle, hlen ▸ hl⟩))
  · intro hd hp hh hl hv
    have hwhole : (s.buf ++ [d]).length = frameLength hd := hlen.trans hl
    have hj := judge_of_checksumOk (readHeader_append hh [d]) (header_of_normal hn hh).1 hwhole.ge
      ((crcVerify_push hl).symm.trans hv)
    rw [exec_fpPush_found (haligned (body hp)) hj, List.drop_eq_nil_of_le hwhole.le]
    rfl
  · intro hd hp hh hl hv
    exact exec_fpPush_found (haligned (body hp)) (judge_of_not_checksumOk (readHeader_append hh [d]) (header_of_normal hn hh).1
      (hlen.trans hl).ge (Bool.eq_false_iff.1 ((crcVerify_push hl).symm.trans hv)))

/-! ### The events of a push -/

/-- R101: a whole frame that stands in a normal state's buffer after a push ends with the pushed byte. -/
theorem frameLength_of_push {s : State} (h : s.normal = true) {d : Byte} {hd : Header}
    (hh : readHeader (s.buf ++ [d]) = some hd) (hl : frameLength hd ≤ s.buf.length + 1) : frameLength hd = s.buf.length + 1 := by
  cases hb : readHeader s.buf with
  | none =>
    have h8 := (readHeader_eq_none_iff _).1 hb
    rw [frameLength] at hl
    omega
  | some hd' =>
    have hlt := (header_of_normal h hb).2
    rw [readHeader_append hb [d]] at hh
    cases hh
    omega

/-- R101: where the first pass of a push into a normal state delivers a frame, the scan ends there. -/
theorem scan_push_of_frame_first {s : State} (h : s.normal = true) {d : Byte} {c k : Byte} {q : Half} {p : List Byte}
    {rest : List Event} (hev : (scan s.cfg.payloadMax.val (s.buf ++ [d])).2 = .frame c k q p :: rest) :
    scan s.cfg.payloadMax.val (s.buf ++ [d]) = ([], [.frame c k q p]) := by
  have hlen : (s.buf ++ [d]).length = s.buf.length + 1 := List.length_append
  cases hj : judge s.cfg.payloadMax.val (align (s.buf ++ [d])) with
  | wait =>
    rw [scan_of_wait hj] at hev
    cases hev
  | found e n =>
    have h8 := eight_le_of_judge_found hj
    have hle := align_length_le (s.buf ++ [d])
    have ha : align (s.buf ++ [d]) = s.buf ++ [d] := align_append_of_normalForm h (by omega) [d]
    rw [scan_of_found hj] at hev ⊢
    obtain ⟨rfl, -⟩ := List.cons.inj hev
    rw [ha] at hj ⊢
    obtain ⟨hd, hh, ⟨he, -⟩ | ⟨-, hl, -, -, rfl⟩ | ⟨-, -, -, he, -⟩⟩ := judge_found hj
    · cases he
    · rw [List.drop_eq_nil_of_le (hlen.trans (frameLength_of_push h hh (hlen ▸ hl)).symm).le]
      rfl
    · cases he

/-- Settles O45: a scan finds no more events than there are bytes (`scan_events_length_le`), and a frame that comes first ends the
scan (`scan_push_of_frame_first`). -/
theorem pushEventBounds : Obligations.PushEventBounds := by
  intro s d hn
  refine ⟨_, _, exec_fpPush d s, rfl, ?_, fun c k q p rest hev => ?_⟩
  · have := scan_events_length_le s.cfg.payloadMax.val (s.buf ++ [d])
    rwa [List.length_append, List.length_singleton] at this
  · have hscan := scan_push_of_frame_first hn hev
    rw [hscan] at hev ⊢
    exact ⟨rfl, (List.cons.inj hev).2.symm⟩

/-! ### Delivered frames -/

/-- R63: a header's bytes and as many bytes as it announces are the body of the frame with its fields. -/
theorem frameBody_of_bytes (c l lh q qh k : Byte) {body : List Byte} (h : (le16 l lh).toNat ≤ body.length) :
    frameBody c (le16 q qh) k (body.take (le16 l lh).toNat) =
      marker0 :: marker1 :: c :: l :: lh :: q :: qh :: k :: body.take (le16 l lh).toNat := by
  have hlen : (body.take (le16 l lh).toNat).length = (le16 l lh).toNat := by rw [List.length_take]; omega
  simp only [frameBody, hlen, BitVec.ofNat_toNat, BitVec.setWidth_eq, lo8_le16, hi8_le16, List.cons_append, List.nil_append]

/-- R91: where the checksum of a header's bytes holds, the frame with its fields and its right trailer stands in front. -/
theorem frameBytes_prefix_of_checksumOk {c l lh q qh k : Byte} {body : List Byte} (hl : (le16 l lh).toNat ≤ body.length)
    (hok : checksumOk (marker0 :: marker1 :: c :: l :: lh :: q :: qh :: k :: body) (le16 l lh).toNat = true) :
    frameBytes c (le16 q qh) k (body.take (le16 l lh).toNat)
      (crc16 (frameBody c (le16 q qh) k (body.take (le16 l lh).toNat))) <+:
      marker0 :: marker1 :: c :: l :: lh :: q :: qh :: k :: body := by
  have hbody := frameBody_of_bytes c l lh q qh k hl
  rw [checksumOk_iff, Nat.add_comm] at hok
  simp only [List.take_succ_cons, List.drop_succ_cons, List.drop_zero, ← hbody] at hok
  obtain ⟨h0, h1⟩ := hok
  generalize crc16 (frameBody c (le16 q qh) k (body.take (le16 l lh).toNat)) = v at h0 h1 ⊢
  have htrailer : body.drop (le16 l lh).toNat = trailerBytes v ++ body.drop ((le16 l lh).toNat + 2) := by
    rw [List.drop_eq_getElem?_toList_append, List.drop_eq_getElem?_toList_append, h0, h1]
    rfl
  refine ⟨body.drop ((le16 l lh).toNat + 2), ?_⟩
  rw [frameBytes, List.append_assoc, ← htrailer, hbody]
  simp only [List.cons_append, List.take_append_drop]

/-- R94: a pass over an aligned list delivers a frame only where it stands in front, with its right trailer. -/
theorem prefix_of_judge_frame {P : Nat} {B : List Byte} {c k : Byte} {q : Half} {p : List Byte} {n : Nat}
    (h : judge P B = .found (.frame c k q p) n) (hm : markerPrefix B = true) :
    p.length ≤ P ∧ frameBytes c q k p (crc16 (frameBody c q k p)) <+: B := by
  obtain ⟨hd, hh, ⟨he, -⟩ | ⟨hle, hl, hok, he, -⟩ | ⟨-, -, -, he, -⟩⟩ := judge_found h
  · cases he
  · obtain ⟨m0, m1, l, lh, s, sh, body, rfl, hN, hseq⟩ := readHeader_eq_some hh
    obtain ⟨_, hmarker⟩ := markerPrefix_two hm (by simp)
    cases he
    cases hmarker
    rw [frameLength, hN] at hl
    rw [hN] at hle hok
    rw [hN, hseq]
    have hbody : (le16 l lh).toNat ≤ body.length := by
      simp only [List.length_cons] at hl
      omega
    exact ⟨(List.length_take_le _ _).trans hle, frameBytes_prefix_of_checksumOk hbody hok⟩
  · cases he

/-- R94: a frame that a scan delivers stands in the scanned bytes, with its right trailer. -/
theorem infix_of_scan_frame {P : Nat} {B : List Byte} {c k : Byte} {q : Half} {p : List Byte}
    (h : Event.frame c k q p ∈ (scan P B).2) :
    p.length ≤ P ∧ frameBytes c q k p (crc16 (frameBody c q k p)) <:+: B := by
  induction B using scan_induction (P := P) with
  | wait A hj =>
    rw [scan_of_wait hj] at h
    cases h
  | found A e n hj ih =>
    rw [scan_of_found hj] at h
    obtain rfl | h := List.mem_cons.1 h
    · have h8 := eight_le_of_judge_found hj
      have hm := (align_cases A).resolve_left fun h0 => by simp [h0] at h8
      obtain ⟨hp, hf⟩ := prefix_of_judge_frame hj hm
      exact ⟨hp, hf.isInfix.trans (align_suffix A).isInfix⟩
    · obtain ⟨hp, hf⟩ := ih h
      exact ⟨hp, hf.trans ((List.drop_suffix _ _).trans (align_suffix A)).isInfix⟩

/-- Settles O46: `infix_of_scan_frame`. -/
theorem deliveredFramesAreVerified : Obligations.DeliveredFramesAreVerified := by
  refine fun s d => ⟨_, _, exec_fpPush d s, rfl, fun c k q p hmem => ?_⟩
  obtain ⟨hp, pre, post, hB⟩ := infix_of_scan_frame hmem
  have hfits : p.length ≤ 65535 := hp.trans (Nat.le_of_lt_succ s.cfg.payloadMax.isLt)
  exact ⟨hp, _, pre, post, frameEncode_of_fits c q k hfits, hB.symm⟩

end Sys2Proof.Machine
end

section
/-! SUPPORT. `decode_buffer` (R118): on the block and by one scan, and case by case as the document has it (R119). -/

namespace Sys2Proof.Machine

/-! ### On the block -/

/-- `FP.DECODE` is `FP.CLR` and the pushes of its bytes. -/
theorem execAll_fpDecode (bytes : List Byte) (s : State) :
    execAll (Asm.Pseudo.fpDecode bytes).expand s = .next (pushBytes bytes (clearBuffer s)) := by
  rw [Asm.Pseudo.expand, execAll_cons_of_next (exec_fpClr 0 s), execAll_fpPush]
  rfl

/-- Settles O50: the emptied buffer is in normal form, so the pushes are one scan of the bytes (`pushBytes_eq_scan_of_normal`). -/
theorem decodeOnBlockIsDecodeBuffer : Obligations.DecodeOnBlockIsDecodeBuffer := by
  intro s bytes
  simp only [decodeOnBlock, execAll_fpDecode, pushBytes_eq_scan_of_normal (normal_of_buf_nil (clearBuffer_buf _))]
  rfl

/-! ### The document's algorithm (R119) -/

/-- Where the first pass waits, the result is the status of what is left. -/
theorem decodeBuffer_of_wait {cfg : Config} {bytes : List Byte} (h : judge cfg.payloadMax.val (align bytes) = .wait) :
    decodeBuffer cfg bytes = classify [] (align bytes) := by
  rw [decodeBuffer, scan_of_wait h]

/-- Where the first pass finds something, that event is the result, whatever the rest. -/
theorem decodeBuffer_of_found {cfg : Config} {bytes : List Byte} {e : Event} {n : Nat}
    (h : judge cfg.payloadMax.val (align bytes) = .found e n) : ∃ events left, decodeBuffer cfg bytes = classify (e :: events) left := by
  rw [decodeBuffer, scan_of_found h]
  exact ⟨_, _, rfl⟩

/-- With no event and fewer than two bytes left, no frame is found. -/
theorem classify_nil_of_length_lt_two {B : List Byte} (h : B.length < 2) : classify [] B = .noFrameFound := by
  simp only [classify, classify.statusResult, (resultOf_eq_noFrame_iff B).2 h]

/-- With no event and two bytes left or more, a frame is incomplete. -/
theorem classify_nil_of_two_le_length {B : List Byte} (h : 2 ≤ B.length) : classify [] B = .incompleteFrame := by
  simp only [classify, classify.statusResult, (resultOf_eq_incomplete_iff B).2 h]

/-- Without the marker, no more than its first byte is left. -/
theorem align_length_lt_two {bytes : List Byte} (h : ∀ i : Nat, ¬ (bytes[i]? = some 0x55 ∧ bytes[i + 1]? = some 0x66)) :
    (align bytes).length < 2 := by
  by_contra hl
  have hm := (align_cases bytes).resolve_left fun h0 => by simp [h0] at hl
  obtain ⟨rest, hr⟩ := markerPrefix_two hm (Nat.le_of_not_lt hl)
  obtain ⟨pre, hpre⟩ := align_suffix bytes
  rw [hr] at hpre
  apply h pre.length
  rw [← hpre]
  simp [marker0, marker1]

/-- The bytes before the first marker are dropped. -/
theorem align_append_marker {pre tail : List Byte}
    (h : ∀ i : Nat, i < pre.length →
      ¬ ((pre ++ 0x55 :: 0x66 :: tail)[i]? = some 0x55 ∧ (pre ++ 0x55 :: 0x66 :: tail)[i + 1]? = some 0x66)) :
    align (pre ++ 0x55 :: 0x66 :: tail) = 0x55 :: 0x66 :: tail := by
  induction pre with
  | nil => exact align_of_markerPrefix rfl
  | cons b pre ih =>
    have hb : ¬ markerPrefix (b :: (pre ++ 0x55 :: 0x66 :: tail)) = true := by
      intro hm
      obtain ⟨rest, hr⟩ := markerPrefix_two hm (by simp only [List.length_cons, List.length_append]; omega)
      apply h 0 (Nat.succ_pos _)
      rw [List.cons_append, hr]
      exact ⟨rfl, rfl⟩
    rw [List.cons_append, align_cons_of_not hb]
    exact ih fun i hi => h (i + 1) (Nat.succ_lt_succ hi)

/-- A marker and a pass that waits on what follows it are an incomplete frame. -/
theorem decodeBuffer_of_marker_wait {cfg : Config} {bytes tail : List Byte} (ha : align bytes = 0x55 :: 0x66 :: tail)
    (hj : judge cfg.payloadMax.val (0x55 :: 0x66 :: tail) = .wait) : decodeBuffer cfg bytes = .incompleteFrame := by
  rw [← ha] at hj
  rw [decodeBuffer_of_wait hj, classify_nil_of_two_le_length]
  simp [ha]

/-- With the default parameter, a marker with a whole header behind it: a cut frame is incomplete, and a whole one is decoded or
rejected by its trailer. -/
theorem decodeBuffer_of_header {bytes : List Byte} {c l lh q qh k : Byte} {body : List Byte}
    (ha : align bytes = 0x55 :: 0x66 :: c :: l :: lh :: q :: qh :: k :: body) :
    (body.length < (le16 l lh).toNat + 2 → decodeBuffer Config.default bytes = .incompleteFrame) ∧
    ∀ t0 t1 : Byte, body[(le16 l lh).toNat]? = some t0 → body[(le16 l lh).toNat + 1]? = some t1 →
      (crcVerify (0x55 :: 0x66 :: c :: l :: lh :: q :: qh :: k :: body.take (le16 l lh).toNat) t0 t1 = true →
        decodeBuffer Config.default bytes = .decodedFrame k (qh ++ q) (body.take (le16 l lh).toNat)) ∧
      (crcVerify (0x55 :: 0x66 :: c :: l :: lh :: q :: qh :: k :: body.take (le16 l lh).toNat) t0 t1 = false →
        decodeBuffer Config.default bytes = .checksumError) := by
  have hh : readHeader (align bytes) = some { control := c, dataLength := le16 l lh, sequence := le16 q qh, commandId := k } := by
    rw [ha]
    rfl
  have hfits : (le16 l lh).toNat ≤ Config.default.payloadMax.val := Nat.le_of_lt_succ (le16 l lh).isLt
  have hlen : (align bytes).length = 8 + body.length := by
    rw [ha]
    simp only [List.length_cons]
    omega
  refine ⟨fun hl => decodeBuffer_of_marker_wait ha ?_, fun t0 t1 h0 h1 => ?_⟩
  · rw [← ha]
    refine judge_wait_iff.2 (.inr ⟨_, hh, hfits, ?_⟩)
    rw [hlen]
    change 8 + body.length < 10 + (le16 l lh).toNat
    omega
  · have hwhole : frameLength { control := c, dataLength := le16 l lh, sequence := le16 q qh, commandId := k } ≤
        (align bytes).length := by
      have := (List.getElem?_eq_some_iff.1 h1).1
      rw [hlen]
      change 10 + (le16 l lh).toNat ≤ 8 + body.length
      omega
    have htake : (align bytes).take (8 + (le16 l lh).toNat) =
        0x55 :: 0x66 :: c :: l :: lh :: q :: qh :: k :: body.take (le16 l lh).toNat := by
      rw [ha, Nat.add_comm]
      rfl
    have hdrop : (align bytes).drop 8 = body := by
      rw [ha]
      rfl
    have hv : crcVerify (0x55 :: 0x66 :: c :: l :: lh :: q :: qh :: k :: body.take (le16 l lh).toNat) t0 t1 =
        checksumOk (align bytes) (le16 l lh).toNat := by
      rw [← htake]
      rw [← hdrop, List.getElem?_drop] at h0 h1
      exact crcVerify_eq_checksumOk h0 ((congrArg ((align bytes)[·]?) (by omega)).trans h1)
    rw [hv]
    refine ⟨fun hok => ?_, fun hok => ?_⟩
    · obtain ⟨events, left, hd⟩ := decodeBuffer_of_found (cfg := Config.default) (judge_of_checksumOk hh hfits hwhole hok)
      rw [hd, ← hdrop]
      rfl
    · obtain ⟨events, left, hd⟩ :=
        decodeBuffer_of_found (cfg := Config.default) (judge_of_not_checksumOk hh hfits hwhole (Bool.eq_false_iff.1 hok))
      rw [hd]
      rfl

/-- Settles O51: without the marker no more than its first byte is left; with it the scan stands at the first one
(`align_append_marker`) and its first pass decides (`decodeBuffer_of_header`). -/
theorem decodeBufferFollowsDocument : Obligations.DecodeBufferFollowsDocument := by
  refine ⟨fun bytes h => ?_, fun pre tail h => ⟨fun hl => ?_, ?_⟩⟩
  · have hl := align_length_lt_two h
    have hwait : judge Config.default.payloadMax.val (align bytes) = .wait :=
      judge_wait_iff.2 (.inl ((readHeader_eq_none_iff _).2 (by omega)))
    rw [decodeBuffer_of_wait hwait, classify_nil_of_length_lt_two hl]
  · have hshort : (0x55 :: 0x66 :: tail).length < 8 := by
      simp only [List.length_cons]
      omega
    exact decodeBuffer_of_marker_wait (align_append_marker h) (judge_wait_iff.2 (.inl ((readHeader_eq_none_iff _).2 hshort)))
  · rintro c l lh q qh k body rfl
    rw [← le16_toNat]
    exact decodeBuffer_of_header (align_append_marker h)

end Sys2Proof.Machine
end
